-- ==== Sys2Proof/Word.lean ====
section
/-! DEFINITION. The word types of the machine (spec/00_scope.md R3, R7). -/

namespace Sys2Proof

/-- One memory cell, 8 bits (R3). -/
abbrev Byte := BitVec 8

/-- One instruction word or data word, 16 bits (R55, decision D3). -/
abbrev Word := BitVec 16

/-- The 12-bit pattern of the accumulator (R14), and the 12-bit operand field (R56). -/
abbrev Bits12 := BitVec 12

/-- The 4-bit opcode field (R56). -/
abbrev Opcode := BitVec 4

/-- The program counter's 13 bits of storage (R18). -/
abbrev PcBits := BitVec 13

/-- A text: a string of the input channel (R91), or a piece of assembly source (R96). -/
abbrev Text := List Char

end Sys2Proof
end

