-- ==== Sys2Proof/Config.lean ====
section
/-! DEFINITION. What is fixed for the machine (spec/00_scope.md section 4), and the free values. -/

namespace Sys2Proof

/-- GD_MODE (R92, decision D14): whether GD's value goes to the accumulator or to the program
counter. -/
inductive GdMode where
  /-- `GD_MODE = AC`, this hardware's value (R4). -/
  | ac
  /-- `GD_MODE = PC`, the source's other variant, which R92 specifies too. -/
  | pc
  deriving DecidableEq, Repr

/-- MEM_SIZE, the number of memory cells (R3). -/
def Config.memSize : Nat := 4096

/-- The largest value of a 12-bit operand, literal or input value (R91, R99). -/
def Config.maxOperand : Nat := 4095

/-- The largest body an image's one-byte length field can count, in words (R4, R114). -/
def Config.maxImageWords : Nat := 255

/-- FREE VALUE (log 10). Whether a character that is neither printable ASCII nor tab, LF or CR
counts as the white space R91 removes around an input string: the spec does not list the
characters. No body: nothing can be proved of its values. -/
opaque Config.otherWhitespace : Char → Bool

/-- FREE VALUE (log 15). Half of what the program counter holds after a launch that failed for an
odd ENTRY: R134 stops before it writes PC, and R18 keeps PC even and at most 4096 always. -/
opaque Config.halfPcUnlaunched : Fin 2049

end Sys2Proof
end

