-- ==== Sys2Proof/Syntax.lean ====
section
/-! DEFINITION. The instructions: one constructor per row of spec/opcode_table.json
(spec/30_encoding.md R60), in the table's order. Each carries the 12-bit operand field of the one
format W (R56); how the field is used is fixed by the opcode (R59). -/

namespace Sys2Proof

/-- The 16 instructions (R60). -/
inductive Instr where
  /-- JMP addr, opcode 0x0 (R73). -/
  | jmp (addr : Bits12)
  /-- JZ addr, opcode 0x1 (R74). -/
  | jz (addr : Bits12)
  /-- JN addr, opcode 0x2 (R75). -/
  | jn (addr : Bits12)
  /-- LV val, opcode 0x3 (R81). -/
  | lv (val : Bits12)
  /-- ADD addr, opcode 0x4 (R82). -/
  | add (addr : Bits12)
  /-- SUB addr, opcode 0x5 (R83). -/
  | sub (addr : Bits12)
  /-- MUL addr, opcode 0x6 (R84). -/
  | mul (addr : Bits12)
  /-- DIV addr, opcode 0x7 (R85). -/
  | div (addr : Bits12)
  /-- LD addr, opcode 0x8 (R86). -/
  | ld (addr : Bits12)
  /-- MM addr, opcode 0x9 (R87). -/
  | mm (addr : Bits12)
  /-- SC addr, opcode 0xA (R88). -/
  | sc (addr : Bits12)
  /-- RS addr, opcode 0xB (R89). -/
  | rs (addr : Bits12)
  /-- HM addr, opcode 0xC (R90). -/
  | hm (addr : Bits12)
  /-- GD, opcode 0xD; the field is kept and has no effect (R92, decision D16). -/
  | gd (ignored : Bits12)
  /-- PD, opcode 0xE; the field is kept and has no effect (R93, decision D16). -/
  | pd (ignored : Bits12)
  /-- OS n, opcode 0xF (R94). -/
  | os (service : Bits12)
  deriving DecidableEq, Repr

end Sys2Proof
end

