-- ==== Sys2Proof/WellFormed.lean ====
section
/-! DEFINITION. Well-formed instructions: the operand fits its field (spec/30_encoding.md R56, R59).
Every instruction accepts every value of the 12-bit field (R61), so this is the one check there is,
and the type of the field already makes it hold. -/

namespace Sys2Proof

/-- A number that a 12-bit operand field can hold (R56, R59): `0..4095`. -/
def operandFits (n : Nat) : Bool := n ≤ Config.maxOperand

/-- The instruction's operand fits its field. -/
def Instr.wf : Instr → Bool
  | .jmp a => operandFits a.toNat
  | .jz a => operandFits a.toNat
  | .jn a => operandFits a.toNat
  | .lv v => operandFits v.toNat
  | .add a => operandFits a.toNat
  | .sub a => operandFits a.toNat
  | .mul a => operandFits a.toNat
  | .div a => operandFits a.toNat
  | .ld a => operandFits a.toNat
  | .mm a => operandFits a.toNat
  | .sc a => operandFits a.toNat
  | .rs a => operandFits a.toNat
  | .hm a => operandFits a.toNat
  | .gd x => operandFits x.toNat
  | .pd x => operandFits x.toNat
  | .os n => operandFits n.toNat

end Sys2Proof
end

