-- ==== Sys2Proof/Decode.lean ====
section
/-! DEFINITION. The decoder (spec/30_encoding.md R55 to R63), and after it the encoder. -/

namespace Sys2Proof

/-- `b1 ++ b2 = b1 * 256 + b2` (R7): the big-endian word of two bytes (R40, R41). -/
def wordOfBytes (first second : Byte) : Word := BitVec.ofNat 16 (first.toNat * 256 + second.toNat)

/-- The byte at the lower address of a word, `w[15:8]` (R7, R40). -/
def Word.firstByte (w : Word) : Byte := BitVec.ofNat 8 (w.toNat / 256)

/-- The byte at the higher address of a word, `w[7:0]` (R7, R40). -/
def Word.secondByte (w : Word) : Byte := BitVec.ofNat 8 w.toNat

/-- `op = W[15:12]` (R7, R57). -/
def opField (w : Word) : Opcode := BitVec.ofNat 4 (w.toNat / 4096)

/-- `operand = W[11:0]` (R7, R57). -/
def operandField (w : Word) : Bits12 := BitVec.ofNat 12 w.toNat

/-- OPCODE_TABLE, the fixed array of operations indexed by the 4-bit opcode (R25, R60, R68). -/
def opcodeTable : Vector (Bits12 → Instr) 16 :=
  #v[.jmp, .jz, .jn, .lv, .add, .sub, .mul, .div, .ld, .mm, .sc, .rs, .hm, .gd, .pd, .os]

/-- `operation = OPCODE_TABLE[op]`, applied to its operand (R57). -/
def instrOf (op : Opcode) (operand : Bits12) : Instr :=
  (opcodeTable[op.toNat]'(op.isLt)) operand

/-- Decode one instruction word (R57). Every word decodes (R61). -/
def decodeWord (w : Word) : Instr := instrOf (opField w) (operandField w)

/-- Why bytes are not decoded. The only reason is too few of them: there is no illegal encoding
(R61). The machine never meets it, since a fetch reads two bytes or raises OutOfRange (R66). -/
inductive DecodeError where
  /-- Fewer than the two bytes of an instruction (R55, R58). Raised by `decode`; safe. -/
  | truncated
  deriving DecidableEq, Repr

/-- Decode the instruction at the head of a list of bytes, and give the bytes after it (R55). -/
def decode : List Byte → Except DecodeError (Instr × List Byte)
  | first :: second :: rest => .ok (decodeWord (wordOfBytes first second), rest)
  | _ => .error .truncated

/-- What `decode` reads from the instruction whose bits are `w`, numbered as the opcode table
numbers them (bit 0 the least significant of the 16-bit word; every bit from `nbits` on is 0). The
word is laid out as the hardware stores it, its high byte first (R40). -/
def decodeTableWord (nbits w : Nat) : Option Instr :=
  let word : Word := BitVec.ofNat 16 (w % 2 ^ nbits)
  match decode [word.firstByte, word.secondByte] with
  | .ok (i, _) => some i
  | .error _ => none

/-- The opcode value of an instruction (R60). -/
def Instr.opcode : Instr → Opcode
  | .jmp _ => 0x0
  | .jz _ => 0x1
  | .jn _ => 0x2
  | .lv _ => 0x3
  | .add _ => 0x4
  | .sub _ => 0x5
  | .mul _ => 0x6
  | .div _ => 0x7
  | .ld _ => 0x8
  | .mm _ => 0x9
  | .sc _ => 0xA
  | .rs _ => 0xB
  | .hm _ => 0xC
  | .gd _ => 0xD
  | .pd _ => 0xE
  | .os _ => 0xF

/-- The operand field of an instruction (R56). -/
def Instr.operand : Instr → Bits12
  | .jmp a => a
  | .jz a => a
  | .jn a => a
  | .lv v => v
  | .add a => a
  | .sub a => a
  | .mul a => a
  | .div a => a
  | .ld a => a
  | .mm a => a
  | .sc a => a
  | .rs a => a
  | .hm a => a
  | .gd x => x
  | .pd x => x
  | .os n => n

/-- The word of an opcode and an operand field, `oooo aaaa aaaa aaaa`: `op * 4096 + operand`
(R56, R113). -/
def wordOfFields (op : Opcode) (operand : Bits12) : Word :=
  BitVec.ofNat 16 (op.toNat * 4096 + operand.toNat)

/-- The word of an instruction (R56, R60). -/
def encode (i : Instr) : Word := wordOfFields i.opcode i.operand

/-- The two bytes of an instruction as memory holds them, the first at the lower address (R40). -/
def encodeBytes (i : Instr) : List Byte := [(encode i).firstByte, (encode i).secondByte]

end Sys2Proof
end

