-- ==== Sys2Proof/Machine/State.lean ====
section
/-! DEFINITION. The architectural state (spec/10_state.md), the errors it can record
(spec/60_exceptions.md section 1), and the reset state (spec/10_state.md R29). -/

namespace Sys2Proof.Machine

/-- A fatal error of the CPU with the value it records (R119, table rows 5 to 9). -/
inductive CpuError where
  /-- An odd value written to PC (R122); records the odd value. -/
  | invalidAddress (value : Nat)
  /-- A fetch or a data access past address 4095 (R121); records the address. -/
  | outOfRange (addr : Nat)
  /-- DIV with a zero divisor (R123); records the operand address. -/
  | divideByZero (addr : Nat)
  /-- RS with a return-slot high byte above 0xF (R124); records the slot address. -/
  | overflow (addr : Nat)
  /-- OS with a service number other than 0 (R125); records the service number. -/
  | unimplemented (service : Nat)
  deriving DecidableEq, Repr

/-- The run state (R26). -/
inductive RunState where
  /-- `RUNNING`: the CPU performs fetch-decode-execute cycles. -/
  | running
  /-- `HALTED_WAITING(t)`: entered by HM, left only by the resume signal. -/
  | haltedWaiting (target : Bits12)
  /-- `TERMINATED`: entered by OS 0; terminal. -/
  | terminated
  /-- `FAULTED(e, pc, ac)`: entered when an error is raised; terminal. -/
  | faulted (error : CpuError) (pc : PcBits) (ac : Bits12)
  deriving DecidableEq, Repr

/-- The 4096 cells (R36) as a list of (address, byte) pairs in one canonical form (`Memory.wf`).
The operations are in Machine/Ops.lean. -/
abbrev Memory := List Host.Cell

/-- The machine's state. `input` and `resumeLine` are the model's own fields: they hold the open
parameter HOST (R5, decision D39), that is, what the host will do. -/
structure State where
  /-- AC, the accumulator's 12-bit two's-complement pattern (R14). -/
  ac : Bits12
  /-- PC, the program counter (R18). -/
  pc : PcBits
  /-- Memory (R36). -/
  mem : Memory
  /-- The run state (R26). -/
  run : RunState
  /-- The output history, oldest first (R28). -/
  out : List Int
  /-- The configuration value GD_MODE (R92), an argument of the launch (R134); no step writes it. -/
  gdMode : GdMode
  /-- HOST: the strings the input channel will supply, oldest first (R32; log 4). -/
  input : List Text
  /-- HOST: for each coming step, whether the host sends the resume signal at it (R34; log 5).
  Past the end of the list no signal comes. -/
  resumeLine : List Bool
  deriving DecidableEq, Repr

/-- Why there is no step. Neither is an error of the program: a fatal error is a NEXT state, with
the run state FAULTED (R126). -/
inductive Fault where
  /-- The run has ended in TERMINATED (R71, R72). Raised by `step` alone; safe: the spec gives no
  step here. -/
  | runTerminated
  /-- The run has ended in FAULTED (R71, R72, R128). Raised by `step` alone; safe: the spec gives
  no step here. -/
  | runFaulted
  deriving DecidableEq, Repr

/-- Why an instruction has no meaning. -/
inductive Refusal where
  /-- The instruction is not modelled. Raised by no arm of `exec`: all 16 are modelled. Safe. -/
  | notModelled (mnemonic : String)
  deriving DecidableEq, Repr

/-- The machine right after reset, with no program loaded. R29 gives RUNNING, an empty output
history and (R4) GD_MODE = AC. It leaves AC, PC and memory open: AC = 0 (log 1), PC = 0 (log 2),
every cell 0x00 (log 3). No string and no resume signal is to come (log 4, log 5). -/
def State.reset : State where
  ac := 0
  pc := 0
  mem := []
  run := .running
  out := []
  gdMode := .ac
  input := []
  resumeLine := []

end Sys2Proof.Machine
end

