-- ==== Sys2Proof/Machine/Ops.lean ====
section
/-! DEFINITION. The named operations over memory, registers and the run state: memory access
(spec/20_memory.md), fetch and the checked PC write (spec/40_cycle.md), entering FAULTED
(spec/60_exceptions.md R126), the resume (spec/44_system_io.md R90). -/

namespace Sys2Proof.Machine

/-! ### Memory as data -/

/-- What a cell that the list does not name holds (log 3). -/
def unlistedByte : Byte := 0

/-- The byte of cell `a` (R11, R36). -/
def Memory.read : Memory → Nat → Byte
  | [], _ => unlistedByte
  | (k, b) :: rest, a => if k = a then b else Memory.read rest a

/-- A list entry for cell `a`, unless an unlisted cell reads the same. -/
def Memory.cons (a : Nat) (b : Byte) (rest : Memory) : Memory :=
  if b = unlistedByte then rest else (a, b) :: rest

/-- `Mem[a] <- b` (R11), keeping the canonical form. -/
def Memory.write : Memory → Nat → Byte → Memory
  | [], a, b => Memory.cons a b []
  | (k, c) :: rest, a, b =>
    if a < k then Memory.cons a b ((k, c) :: rest)
    else if a = k then Memory.cons a b rest
    else (k, c) :: Memory.write rest a b

/-- Write consecutive cells from `a` on (R135). -/
def Memory.writeBytes : Memory → Nat → List Byte → Memory
  | m, _, [] => m
  | m, a, b :: bs => Memory.writeBytes (m.write a b) (a + 1) bs

/-- The canonical form from address `low` on. -/
def Memory.wfFrom : Nat → Memory → Bool
  | _, [] => true
  | low, (k, b) :: rest =>
    decide (low ≤ k) && decide (k < Config.memSize) && (b != unlistedByte) && Memory.wfFrom (k + 1) rest

/-- The canonical form: addresses strictly rising and below 4096, and no entry with the byte that an
unlisted cell reads as. -/
def Memory.wf (m : Memory) : Bool := Memory.wfFrom 0 m

/-! ### The CPU's accesses -/

/-- The range requirement of an access of `n` bytes at `a`: `a + n <= 4096`, else OutOfRange with
the last address of the access (R11, R39; R82, R88: `addr + 1`). -/
def checkRange (a n : Nat) : Except CpuError Unit :=
  if a + n ≤ Config.memSize then .ok () else .error (.outOfRange (a + n - 1))

/-- `Mem[a] * 256 + Mem[a+1]`, with no check. -/
def Memory.wordAt (m : Memory) (a : Nat) : Word := wordOfBytes (m.read a) (m.read (a + 1))

/-- Store the two bytes of a word, the more significant at the lower address, with no check. -/
def Memory.putWord (m : Memory) (a : Nat) (w : Word) : Memory :=
  (m.write a w.firstByte).write (a + 1) w.secondByte

/-- `MemRead(a, 1)` (R11). -/
def memReadByte (m : Memory) (a : Nat) : Except CpuError Byte := do
  checkRange a 1
  return m.read a

/-- `MemRead(a, 2)`, big-endian (R11, R41). -/
def memReadWord (m : Memory) (a : Nat) : Except CpuError Word := do
  checkRange a 2
  return m.wordAt a

/-- `MemWrite(a, 1, v)` (R11). -/
def memWriteByte (m : Memory) (a : Nat) (v : Byte) : Except CpuError Memory := do
  checkRange a 1
  return m.write a v

/-- `MemWrite(a, 2, v)`, big-endian (R11, R41); the check comes before any byte is written. -/
def memWriteWord (m : Memory) (a : Nat) (v : Word) : Except CpuError Memory := do
  checkRange a 2
  return m.putWord a v

/-! ### Registers -/

/-- The value of AC, in `-2048..2047` (R14). -/
def State.acVal (s : State) : Int := s.ac.toInt

/-- `AC <- sext_12(x)`: every write to AC keeps the low 12 bits of the exact value (R15, R77). -/
def State.setAc (s : State) (x : Int) : State := { s with ac := BitVec.ofInt 12 x }

/-- PC set to a value in `0..4096`, unchecked: the fetch's increment, and the end of `setPc`. -/
def State.putPc (s : State) (v : Nat) : State := { s with pc := BitVec.ofNat 13 v }

/-- The parity check of a value about to be written to PC (R67). -/
def checkParity (v : Nat) : Except CpuError Unit :=
  if v % 2 = 1 then .error (.invalidAddress v) else .ok ()

/-- `SetPC(v)` (R67): an odd value raises InvalidAddress and is not written. -/
def setPc (v : Nat) (s : State) : Except CpuError State := do
  checkParity v
  return s.putPc v

/-- `state <- S` (R12). -/
def State.setRun (s : State) (r : RunState) : State := { s with run := r }

/-- Memory after a store. -/
def State.setMem (s : State) (m : Memory) : State := { s with mem := m }

/-- `emit(v)`: the output history grows at its end (R28, R33). -/
def State.emit (s : State) (v : Int) : State := { s with out := s.out ++ [v] }

/-! ### Errors -/

/-- Fault entry (R126): the run state records the error with PC and AC at fault time; nothing else
changes. There is no return from it (R128). -/
def State.raise (s : State) (e : CpuError) : State := s.setRun (.faulted e s.pc s.ac)

/-- The end of an instruction that ran on the fetched state `s`: its result, or, when it raised,
`s` with the fault entered and none of the instruction's writes (R12, R70, decision D10). -/
def State.finish (s : State) (r : Except CpuError State) : Host.Outcome State Fault Refusal :=
  match r with
  | .ok t => .next t
  | .error e => .next (s.raise e)

/-- The nine error kinds of the taxonomy, in the source's order (R119). -/
inductive ErrorKind where
  | parseFault
  | nameConflict
  | undeclaredSymbol
  | capacityExceeded
  | invalidAddress
  | outOfRange
  | divideByZero
  | overflow
  | unimplemented
  deriving DecidableEq, Repr

/-- The numeric code of an error kind (R119, decision D20). -/
def ErrorKind.code : ErrorKind → Nat
  | .parseFault => 1
  | .nameConflict => 2
  | .undeclaredSymbol => 3
  | .capacityExceeded => 4
  | .invalidAddress => 5
  | .outOfRange => 6
  | .divideByZero => 7
  | .overflow => 8
  | .unimplemented => 9

/-- The kind of a CPU error (R119). -/
def CpuError.kind : CpuError → ErrorKind
  | .invalidAddress _ => .invalidAddress
  | .outOfRange _ => .outOfRange
  | .divideByZero _ => .divideByZero
  | .overflow _ => .overflow
  | .unimplemented _ => .unimplemented

/-! ### Fetch -/

/-- `fetch()` (R66): the word at PC, and the state with PC advanced by 2; OutOfRange, with PC not
advanced, when `PC + 2 > 4096`. -/
def fetch (s : State) : Except CpuError (Word × State) :=
  if s.pc.toNat + 2 > Config.memSize then .error (.outOfRange s.pc.toNat)
  else .ok (s.mem.wordAt s.pc.toNat, s.putPc (s.pc.toNat + 2))

/-- The fetch taken back: a GD that waits for input has not stepped, and PC is the GD's own address
(R27, R71; log 6). -/
def State.unfetch (s : State) : State := { s with pc := s.pc - 2 }

/-! ### The resume signal -/

/-- Whether the host sends the resume signal at this step (R34; log 5). -/
def State.resumeArrives (s : State) : Bool := s.resumeLine.headD false

/-- The host's resume line moves on by one step. A signal that comes in any other run state than
HALTED_WAITING is thereby ignored (R34). -/
def State.tick (s : State) : State := { s with resumeLine := s.resumeLine.tail }

/-- `resume()` (R90): enabled only in `HALTED_WAITING(t)`; an odd `t` raises InvalidAddress. In any
other run state the signal changes nothing (R34). -/
def resume (s : State) : State :=
  match s.run with
  | .haltedWaiting t =>
    match setPc t.toNat s with
    | .ok s' => s'.setRun .running
    | .error e => s.raise e
  | _ => s

/-- One step of a CPU in HALTED_WAITING (R71): the resume when the signal comes; until then every
piece of state is kept (R132). -/
def waitForResume (s : State) : State :=
  if s.resumeArrives then resume s.tick else s.tick

end Sys2Proof.Machine
end

