-- ==== Sys2Proof/Machine/Operands.lean ====
section
/-! DEFINITION. The operand forms (spec/30_encoding.md R59) and the integer functions they and the
ALU use (spec/00_scope.md R8 to R10, spec/42_accumulator.md R76 to R80). -/

namespace Sys2Proof.Machine

/-- `sext_12(x)` (R8): the value of the low 12 bits of `x` in two's complement. -/
def sext12 (x : Int) : Int := (x % 4096 + 2048) % 4096 - 2048

/-- `u16(x)`, the 16-bit two's-complement image of an integer (R9). -/
def u16 (x : Int) : Word := BitVec.ofInt 16 x

/-- Whether two integers have the same sign, zero counting as positive (R10). -/
def sameSign (a b : Int) : Bool := decide (a < 0) == decide (b < 0)

/-- `tdiv(a, b)` for `b != 0`: the quotient rounded toward zero (R10). -/
def tdiv (a b : Int) : Int :=
  (if sameSign a b || a == 0 then 1 else -1) * ((a.natAbs / b.natAbs : Nat) : Int)

/-- The address form: the operand zero-extended, `0..4095` (R59). -/
def addressOf (operand : Bits12) : Nat := operand.toNat

/-- The immediate form, LV's: `sext_12(operand)` (R59, R81). -/
def immediateOf (operand : Bits12) : Int := sext12 operand.toNat

/-- The service number form, OS's: the operand zero-extended (R59). -/
def serviceOf (operand : Bits12) : Nat := operand.toNat

/-- `opnd(addr)`, the data operand: the low 12 bits of the big-endian word at `addr`, sign-extended
(R76). -/
def opnd (s : State) (addr : Nat) : Except CpuError Int := do
  let w ← memReadWord s.mem addr
  return sext12 w.toNat

end Sys2Proof.Machine
end

