-- ==== Sys2Proof/Machine/Accumulator.lean ====
section
/-! DEFINITION. LV, ADD, SUB, MUL, DIV, LD, MM (spec/42_accumulator.md). Results are computed on
integers and written through `State.setAc`, which keeps their low 12 bits (R77). -/

namespace Sys2Proof.Machine

/-- AC <- f(AC, opnd(addr)): what ADD, SUB, MUL and LD share (R76, R77). -/
def aluOp (f : Int → Int → Int) (addr : Nat) (s : State) : Except CpuError State := do
  let d ← opnd s addr
  return s.setAc (f s.acVal d)

/-- LV val (R81). -/
def execLv (val : Bits12) (s : State) : Host.Outcome State Fault Refusal :=
  s.finish (.ok (s.setAc (immediateOf val)))

/-- ADD addr (R82). -/
def execAdd (addr : Bits12) (s : State) : Host.Outcome State Fault Refusal :=
  s.finish (aluOp (fun ac d => ac + d) (addressOf addr) s)

/-- SUB addr (R83). -/
def execSub (addr : Bits12) (s : State) : Host.Outcome State Fault Refusal :=
  s.finish (aluOp (fun ac d => ac - d) (addressOf addr) s)

/-- MUL addr (R84). -/
def execMul (addr : Bits12) (s : State) : Host.Outcome State Fault Refusal :=
  s.finish (aluOp (fun ac d => ac * d) (addressOf addr) s)

/-- DIV addr (R85): OutOfRange first, then DivideByZero on the sign-extended divisor (decisions D6,
D11). -/
def execDiv (addr : Bits12) (s : State) : Host.Outcome State Fault Refusal :=
  s.finish do
    let d ← opnd s (addressOf addr)
    if d = 0 then .error (.divideByZero (addressOf addr)) else .ok (s.setAc (tdiv s.acVal d))

/-- LD addr (R86). -/
def execLd (addr : Bits12) (s : State) : Host.Outcome State Fault Refusal :=
  s.finish (aluOp (fun _ d => d) (addressOf addr) s)

/-- MM addr (R87): the 16-bit image of AC, big-endian. -/
def execMm (addr : Bits12) (s : State) : Host.Outcome State Fault Refusal :=
  s.finish do
    let m ← memWriteWord s.mem (addressOf addr) (u16 s.acVal)
    return s.setMem m

end Sys2Proof.Machine
end

