-- ==== Sys2Proof/Machine/Flags.lean ====
section
/-! DEFINITION. Conditions. The machine has no flags, condition codes or predicate registers
(spec/10_state.md R22): no instruction writes one, and overflow is recorded nowhere. What JZ and JN
test is AC's value when they execute; those two tests are all there is. -/

namespace Sys2Proof.Machine

/-- JZ's condition, `AC = 0`, on the whole 12-bit value (R22, R74). -/
def State.acIsZero (s : State) : Bool := decide (s.acVal = 0)

/-- JN's condition, `AC < 0`, the sign of the 12-bit two's-complement value (R22, R75). -/
def State.acIsNegative (s : State) : Bool := decide (s.acVal < 0)

end Sys2Proof.Machine
end

