-- ==== Sys2Proof/Machine/Jumps.lean ====
section
/-! DEFINITION. JMP, JZ, JN (spec/41_jumps.md). A meaning runs on the fetched state: PC already holds
the instruction's address plus 2 (R13). -/

namespace Sys2Proof.Machine

/-- JMP addr (R73). -/
def execJmp (addr : Bits12) (s : State) : Host.Outcome State Fault Refusal :=
  s.finish (setPc (addressOf addr) s)

/-- JZ addr (R74). The target's parity is checked only when the branch is taken (decision D9). -/
def execJz (addr : Bits12) (s : State) : Host.Outcome State Fault Refusal :=
  s.finish (if s.acIsZero then setPc (addressOf addr) s else .ok s)

/-- JN addr (R75). The target's parity is checked only when the branch is taken (decision D9). -/
def execJn (addr : Bits12) (s : State) : Host.Outcome State Fault Refusal :=
  s.finish (if s.acIsNegative then setPc (addressOf addr) s else .ok s)

end Sys2Proof.Machine
end

