-- ==== Sys2Proof/Machine/Subroutine.lean ====
section
/-! DEFINITION. SC and RS (spec/43_subroutine.md). PC, on the fetched state, is the return address. -/

namespace Sys2Proof.Machine

/-- SC addr (R88): both checks come before any write (decisions D10, D11); the slot gets
`PC div 256` as a whole byte (decision D12) and `PC mod 256`. -/
def execSc (addr : Bits12) (s : State) : Host.Outcome State Fault Refusal :=
  s.finish do
    checkRange (addressOf addr) 2
    checkParity (addressOf addr + 2)
    let m ← memWriteByte s.mem (addressOf addr) (BitVec.ofNat 8 (s.pc.toNat / 256))
    let m ← memWriteByte m (addressOf addr + 1) (BitVec.ofNat 8 (s.pc.toNat % 256))
    setPc (addressOf addr + 2) (s.setMem m)

/-- RS addr (R89): OutOfRange, then Overflow, then InvalidAddress (decision D11). -/
def execRs (addr : Bits12) (s : State) : Host.Outcome State Fault Refusal :=
  s.finish do
    checkRange (addressOf addr) 2
    let hi ← memReadByte s.mem (addressOf addr)
    let lo ← memReadByte s.mem (addressOf addr + 1)
    if hi.toNat > 0xF then .error (.overflow (addressOf addr))
    else setPc (hi.toNat * 256 + lo.toNat) s

end Sys2Proof.Machine
end

