-- ==== Sys2Proof/Machine/Literals.lean ====
section
/-! DEFINITION. The numeric literals that the input channel (spec/44_system_io.md R91) and the
assembler (spec/45_assembler.md R99) share: decimal digits, or `/` and hexadecimal digits. -/

namespace Sys2Proof.Machine

/-- The value of a decimal digit `0-9`. -/
def decDigit (c : Char) : Option Nat :=
  if 48 ≤ c.toNat ∧ c.toNat ≤ 57 then some (c.toNat - 48) else none

/-- The value of a hexadecimal digit `0-9`, `a-f`, `A-F`. -/
def hexDigit (c : Char) : Option Nat :=
  if 48 ≤ c.toNat ∧ c.toNat ≤ 57 then some (c.toNat - 48)
  else if 97 ≤ c.toNat ∧ c.toNat ≤ 102 then some (c.toNat - 87)
  else if 65 ≤ c.toNat ∧ c.toNat ≤ 70 then some (c.toNat - 55)
  else none

/-- The number that further digits in a base make of `acc`; none at the first character that is no
digit. -/
def digitsFrom (base : Nat) (digit : Char → Option Nat) : Nat → Text → Option Nat
  | acc, [] => some acc
  | acc, c :: cs =>
    match digit c with
    | some d => digitsFrom base digit (acc * base + d) cs
    | none => none

/-- One or more digits in a base. -/
def numeral (base : Nat) (digit : Char → Option Nat) : Text → Option Nat
  | [] => none
  | c :: cs => digitsFrom base digit 0 (c :: cs)

/-- A literal's value: one or more decimal digits, or `/` and one or more hexadecimal digits; none
for any other text. The range is checked by the users of it. -/
def literalValue : Text → Option Nat
  | [] => none
  | c :: cs => if c = '/' then numeral 16 hexDigit cs else numeral 10 decDigit (c :: cs)

end Sys2Proof.Machine
end

