-- ==== Sys2Proof/Machine/Channels.lean ====
section
/-! DEFINITION. The input channel (spec/10_state.md R32, spec/44_system_io.md R91). The output
channel is `State.emit` and the resume signal `resume`, in Machine/Ops.lean. -/

namespace Sys2Proof.Machine

/-- A printable ASCII character, the space among them. -/
def isPrintableAscii (c : Char) : Bool := decide (32 ≤ c.toNat) && decide (c.toNat ≤ 126)

/-- The white space removed around an input string (R91): space, tab, LF and CR, and whichever of
the characters outside printable ASCII count as such, which is left free (log 10). -/
def isInputSpace (c : Char) : Bool :=
  c == ' ' || c == '\t' || c == '\n' || c == '\r' || (!isPrintableAscii c && Config.otherWhitespace c)

/-- A string without its leading and trailing white space (R91). -/
def trim (t : Text) : Text :=
  ((t.dropWhile isInputSpace).reverse.dropWhile isInputSpace).reverse

/-- The value of an input string, `0..4095`; none when it is malformed (R91). -/
def parseInput (t : Text) : Option Nat :=
  match literalValue (trim t) with
  | some v => if v ≤ Config.maxOperand then some v else none
  | none => none

/-- `await_input()` (R32, R92): malformed strings are discarded; the value of the first valid one,
and the strings after it. None when no valid string will come: the CPU waits. -/
def awaitInput : List Text → Option (Nat × List Text)
  | [] => none
  | t :: rest =>
    match parseInput t with
    | some v => some (v, rest)
    | none => awaitInput rest

/-- The channel after a string was taken from it. -/
def State.setInput (s : State) (rest : List Text) : State := { s with input := rest }

end Sys2Proof.Machine
end

