-- ==== Sys2Proof/Machine/SystemIo.lean ====
section
/-! DEFINITION. HM, GD, PD, OS (spec/44_system_io.md). -/

namespace Sys2Proof.Machine

/-- HM addr, its own step (R90): the run state waits with the target; the target is checked at the
resume (decision D13; `resume` in Machine/Ops.lean). -/
def execHm (addr : Bits12) (s : State) : Host.Outcome State Fault Refusal :=
  s.finish (.ok (s.setRun (.haltedWaiting addr)))

/-- GD's value `v` goes to AC, or in the PC mode to PC (R92). -/
def takeInput (v : Nat) (s : State) : Except CpuError State :=
  match s.gdMode with
  | .ac => .ok (s.setAc (sext12 v))
  | .pc => setPc v s

/-- GD (R92). With a valid string to come, its value is taken. With none, the GD has not stepped:
the state is the one before its fetch (R27, R71; log 6). -/
def execGd (_ignored : Bits12) (s : State) : Host.Outcome State Fault Refusal :=
  match awaitInput s.input with
  | some (v, rest) => (s.setInput rest).finish (takeInput v (s.setInput rest))
  | none => .next s.unfetch

/-- PD (R93): emits AC's signed value (decision D18). -/
def execPd (_ignored : Bits12) (s : State) : Host.Outcome State Fault Refusal :=
  s.finish (.ok (s.emit s.acVal))

/-- OS n (R94): service 0 ends the run; every other number raises Unimplemented. -/
def execOs (service : Bits12) (s : State) : Host.Outcome State Fault Refusal :=
  s.finish
    (if serviceOf service = 0 then .ok (s.setRun .terminated)
    else .error (.unimplemented (serviceOf service)))

end Sys2Proof.Machine
end

