-- ==== Sys2Proof/Machine/Dispatch.lean ====
section
/-! DEFINITION. EXECUTE[op](operand) (spec/40_cycle.md R68, R69): one arm per instruction. -/

namespace Sys2Proof.Machine

def exec (i : Instr) (s : State) : Host.Outcome State Fault Refusal :=
  match i with
  | .jmp addr => Sys2Proof.Machine.execJmp addr s
  | .jz addr => Sys2Proof.Machine.execJz addr s
  | .jn addr => Sys2Proof.Machine.execJn addr s
  | .lv val => Sys2Proof.Machine.execLv val s
  | .add addr => Sys2Proof.Machine.execAdd addr s
  | .sub addr => Sys2Proof.Machine.execSub addr s
  | .mul addr => Sys2Proof.Machine.execMul addr s
  | .div addr => Sys2Proof.Machine.execDiv addr s
  | .ld addr => Sys2Proof.Machine.execLd addr s
  | .mm addr => Sys2Proof.Machine.execMm addr s
  | .sc addr => Sys2Proof.Machine.execSc addr s
  | .rs addr => Sys2Proof.Machine.execRs addr s
  | .hm addr => Sys2Proof.Machine.execHm addr s
  | .gd ignored => Sys2Proof.Machine.execGd ignored s
  | .pd ignored => Sys2Proof.Machine.execPd ignored s
  | .os service => Sys2Proof.Machine.execOs service s

end Sys2Proof.Machine
end

