-- ==== Sys2Proof/Machine/Step.lean ====
section
/-! DEFINITION. One step of the machine (spec/40_cycle.md R69 to R71), and where a step fetches. -/

namespace Sys2Proof.Machine

/-- One step (R71). RUNNING: fetch, decode, execute one whole instruction (R69), or enter FAULTED
when the fetch fails (R70). HALTED_WAITING: the resume, or the wait (R90, R132). TERMINATED and
FAULTED: no step. The host's resume line moves on at every step (log 5). -/
def step (s : State) : Host.Outcome State Fault Refusal :=
  match s.run with
  | .running =>
    match fetch s.tick with
    | .ok (w, fetched) => exec (decodeWord w) fetched
    | .error e => .next (s.tick.raise e)
  | .haltedWaiting _ => .next (waitForResume s)
  | .terminated => .fault .runTerminated
  | .faulted _ _ _ => .fault .runFaulted

/-- `s` with the instruction whose bits are `w` (every bit from `nbits` on 0) stored at PC, high
byte first (R40), and the run state RUNNING, which a fetch needs. This stands for the loader, which
puts a program into memory from outside the machine (R135; log 16). -/
def State.withFetchWord (s : State) (nbits w : Nat) : State :=
  { s with
    mem := s.mem.putWord s.pc.toNat (BitVec.ofNat 16 (w % 2 ^ nbits))
    run := .running }

end Sys2Proof.Machine
end

