-- ==== Sys2Proof/Machine/Image.lean ====
section
/-! DEFINITION. The program image, the binary contract between assembler and loader
(spec/45_assembler.md R115, R116). -/

namespace Sys2Proof.Machine

/-- A program image (R116): origin (2 bytes, big-endian), length byte `N` counting body words,
checksum byte, body. -/
structure Image where
  origin : Word
  length : Byte
  checksum : Byte
  body : List Byte
  deriving DecidableEq, Repr

/-- The checksum of a header: the 8-bit sum of the bytes before it (R115). -/
def headerChecksum (origin : Word) (length : Byte) : Byte :=
  BitVec.ofNat 8 (origin.toNat / 256 + origin.toNat % 256 + length.toNat)

/-- The body has the `2 * N` bytes its header counts (R116). -/
def Image.bodyFits (img : Image) : Bool := img.body.length == 2 * img.length.toNat

/-- What the assembler guarantees of an image (R110, R115, R116): the origin's high nibble is zero,
the checksum is right, the body has `2 * N` bytes and ends at or below address 4094. -/
def Image.wf (img : Image) : Bool :=
  decide (img.origin.toNat + 2 * img.length.toNat < Config.memSize) && img.bodyFits &&
    (img.checksum == headerChecksum img.origin img.length)

/-- The byte string of an image (R116). -/
def Image.toBytes (img : Image) : List Byte :=
  img.origin.firstByte :: img.origin.secondByte :: img.length :: img.checksum :: img.body

/-- The image a byte string is; none when it has no whole header, or not the body its header counts
(R116). -/
def Image.ofBytes : List Byte → Option Image
  | o1 :: o2 :: n :: c :: body =>
    let img : Image := { origin := wordOfBytes o1 o2, length := n, checksum := c, body := body }
    if img.bodyFits then some img else none
  | _ => none

end Sys2Proof.Machine
end

