-- ==== Sys2Proof/Machine/Assembler.lean ====
section
/-! DEFINITION. The assembler (spec/45_assembler.md): grammar, pass 1, pass 2. It is a pure function
from source text to a program image or one error (R95), apart from the CPU's state. -/

namespace Sys2Proof.Machine

/-! ### Errors, records, symbols -/

/-- What a CapacityExceeded of the assembler reports (R117). -/
inductive CapacityContext where
  /-- A literal above 4095: its line and token (R99). -/
  | literal (line : Nat) (token : Text)
  /-- A word that would make the program reach address 4096: its line, the origin, the length after
  the word, the address reached (R110). -/
  | word (line origin length addr : Nat)
  /-- A body of more than 255 words: origin, length and end address (R114). -/
  | body (origin length addr : Nat)
  deriving DecidableEq, Repr

/-- The assembler's errors (R117) with what they report. -/
inductive AsmError where
  | parseFault (line : Nat) (token : Text)
  | nameConflict (line : Nat) (name : Text)
  | undeclaredSymbol (line : Nat) (name : Text)
  | capacityExceeded (context : CapacityContext)
  deriving DecidableEq, Repr

/-- The taxonomy's kind of an assembler error (R119). -/
def AsmError.kind : AsmError → ErrorKind
  | .parseFault _ _ => .parseFault
  | .nameConflict _ _ => .nameConflict
  | .undeclaredSymbol _ _ => .undeclaredSymbol
  | .capacityExceeded _ => .capacityExceeded

/-- The argument of a statement or constant (R99, R102, R107). -/
inductive Arg where
  | lit (v : Nat)
  | sym (name : Text)
  deriving DecidableEq, Repr

/-- What a record becomes a word of (R107). -/
inductive WordKind where
  /-- `Instr(op)`. -/
  | instr (op : Opcode)
  /-- `Const`. -/
  | const
  deriving DecidableEq, Repr

/-- A parsed-but-unresolved record of pass 1 (R107, R108). -/
inductive Record where
  | word (kind : WordKind) (arg : Arg) (line addr : Nat)
  | endMark (name : Option Text) (line addr : Nat)
  deriving DecidableEq, Repr

/-- The symbol table, from name to address (R107). -/
abbrev SymTab := List (Text × Nat)

/-- `symtab[name]`, if the name is registered. -/
def SymTab.find : SymTab → Text → Option Nat
  | [], _ => none
  | (n, a) :: rest, name => if n = name then some a else SymTab.find rest name

/-- SHORTHAND (R5, R64): single-letter mnemonics and their opcodes. The letters are matched as they
are written (log 13). -/
abbrev Shorthand := List (Char × Opcode)

/-! ### Lexical structure (R96 to R100) -/

/-- Split a text at every character of a kind; the pieces hold none of them. -/
def splitText (sep : Char → Bool) : Text → List Text
  | [] => [[]]
  | c :: cs =>
    if sep c then [] :: splitText sep cs
    else
      match splitText sep cs with
      | [] => [[c]]
      | piece :: pieces => (c :: piece) :: pieces

/-- The lines of a source, separated by LF (R96). -/
def sourceLines (source : Text) : List Text := splitText (· == '\n') source

/-- A line without its comment (R97). -/
def stripComment (line : Text) : Text := line.takeWhile (· != ';')

/-- White space inside a line: space, tab, CR (R96, R98). -/
def isBlank (c : Char) : Bool := c == ' ' || c == '\t' || c == '\r'

/-- The tokens of a line (R98). -/
def tokens (line : Text) : List Text := (splitText isBlank line).filter (fun t => !t.isEmpty)

/-- A letter `A-Z`, `a-z`. -/
def isLetter (c : Char) : Bool :=
  (decide (65 ≤ c.toNat) && decide (c.toNat ≤ 90)) || (decide (97 ≤ c.toNat) && decide (c.toNat ≤ 122))

/-- A digit `0-9`. -/
def isDigit (c : Char) : Bool := (decDigit c).isSome

/-- A letter in upper case; any other character unchanged. -/
def upper (c : Char) : Char :=
  if 97 ≤ c.toNat ∧ c.toNat ≤ 122 then Char.ofNat (c.toNat - 32) else c

/-- The 16 mnemonics with their opcodes (R60, R64). -/
def mnemonicTable : List (Text × Opcode) :=
  [(['J', 'M', 'P'], 0x0), (['J', 'Z'], 0x1), (['J', 'N'], 0x2), (['L', 'V'], 0x3),
   (['A', 'D', 'D'], 0x4), (['S', 'U', 'B'], 0x5), (['M', 'U', 'L'], 0x6), (['D', 'I', 'V'], 0x7),
   (['L', 'D'], 0x8), (['M', 'M'], 0x9), (['S', 'C'], 0xA), (['R', 'S'], 0xB),
   (['H', 'M'], 0xC), (['G', 'D'], 0xD), (['P', 'D'], 0xE), (['O', 'S'], 0xF)]

/-- The opcode of a token that is a mnemonic in any letter case, or a SHORTHAND entry (R101 row 4,
R102). -/
def mnemonicOpcode (sh : Shorthand) (t : Text) : Option Opcode :=
  match mnemonicTable.lookup (t.map upper) with
  | some op => some op
  | none =>
    match t with
    | [c] => sh.lookup c
    | _ => none

/-- The token `K` or `k` (R101 row 3). -/
def isK (t : Text) : Bool := t == ['K'] || t == ['k']

/-- A reserved word, which may not be a name (R100). -/
def isReserved (sh : Shorthand) (t : Text) : Bool := (mnemonicOpcode sh t).isSome || isK t

/-- A token of the form of a name (R100). -/
def hasNameForm : Text → Bool
  | [] => false
  | c :: cs => (isLetter c || c == '_') && cs.all (fun d => isLetter d || isDigit d || d == '_')

/-- A name: of the form of one, and no reserved word (R100). -/
def isName (sh : Shorthand) (t : Text) : Bool := hasNameForm t && !isReserved sh t

/-- A token that begins as a literal does: with a digit or `/` (R99). -/
def startsLiteral : Text → Bool
  | [] => false
  | c :: _ => isDigit c || c == '/'

/-- An argument, read at its line (R99, R102): a literal, range-checked, or a name; any other token
fails ParseFault. -/
def parseArg (sh : Shorthand) (line : Nat) (t : Text) : Except AsmError Arg :=
  if startsLiteral t then
    match literalValue t with
    | none => .error (.parseFault line t)
    | some v =>
      if v ≤ Config.maxOperand then .ok (.lit v) else .error (.capacityExceeded (.literal line t))
  else if isName sh t then .ok (.sym t)
  else .error (.parseFault line t)

/-- The argument of `@`: a literal; a symbol there fails ParseFault (R104). -/
def parseOrigin (sh : Shorthand) (line : Nat) (t : Text) : Except AsmError Nat :=
  match parseArg sh line t with
  | .ok (.lit v) => .ok v
  | .ok (.sym _) => .error (.parseFault line t)
  | .error e => .error e

/-- A token that must be a name (R100). -/
def parseName (sh : Shorthand) (line : Nat) (t : Text) : Except AsmError Text :=
  if isName sh t then .ok t else .error (.parseFault line t)

/-! ### Lines (R101) -/

/-- The classes of a line (R101), with the tokens their rules read. -/
inductive Line where
  /-- Nothing but white space and a comment (R97). -/
  | ignored
  /-- `@ ARG`. -/
  | origin (arg : Text)
  /-- `# [NAME]`. -/
  | endMark (name : Option Text)
  /-- `NAME K ARG`. -/
  | constant (name arg : Text)
  /-- `MNEMONIC [ARG]`. -/
  | statement (op : Opcode) (arg : Option Text)
  /-- `NAME`. -/
  | label (name : Text)
  deriving DecidableEq, Repr

/-- GD and PD, whose argument may be left out (R102, decision D16). -/
def argOptional (op : Opcode) : Bool := op == 0xD || op == 0xE

/-- Rows 3 to 6 of R101, for a line whose first token is `t1`. -/
def classifyRest (sh : Shorthand) (line : Nat) (t1 : Text) (args : List Text) : Except AsmError Line :=
  match args with
  | [] =>
    match mnemonicOpcode sh t1 with
    | some op => if argOptional op then .ok (.statement op none) else .error (.parseFault line t1)
    | none => if isName sh t1 then .ok (.label t1) else .error (.parseFault line t1)
  | [a] =>
    match mnemonicOpcode sh t1 with
    | some op => .ok (.statement op (some a))
    | none => .error (.parseFault line t1)
  | [k, a] => if isK k then .ok (.constant t1 a) else .error (.parseFault line t1)
  | _ => .error (.parseFault line t1)

/-- The class of a line by its tokens: the first row of R101 that matches. A wrong number of tokens
fails ParseFault at the first token. -/
def classify (sh : Shorthand) (line : Nat) : List Text → Except AsmError Line
  | [] => .ok .ignored
  | t1 :: args =>
    if t1 = ['@'] then
      match args with
      | [a] => .ok (.origin a)
      | _ => .error (.parseFault line t1)
    else if t1 = ['#'] then
      match args with
      | [] => .ok (.endMark none)
      | [n] => .ok (.endMark (some n))
      | _ => .error (.parseFault line t1)
    else classifyRest sh line t1 args

/-! ### Pass 1 (R107 to R111) -/

/-- Pass 1's state once the origin is known (R107). -/
structure Pass1 where
  origin : Nat
  /-- The running length `L`, in bytes. -/
  length : Nat
  symtab : SymTab
  /-- The records, in source order. -/
  records : List Record
  deriving DecidableEq, Repr

/-- `declare(NAME, a, i)` (R108, R109). -/
def declare (p : Pass1) (name : Text) (addr line : Nat) : Except AsmError Pass1 :=
  match p.symtab.find name with
  | some _ => .error (.nameConflict line name)
  | none => .ok { p with symtab := p.symtab ++ [(name, addr)] }

/-- `reserve(i, kind, ARG)` (R108, R110). -/
def reserve (p : Pass1) (kind : WordKind) (arg : Arg) (line : Nat) : Except AsmError Pass1 :=
  if p.origin + p.length + 2 ≥ Config.memSize then
    .error (.capacityExceeded (.word line p.origin (p.length + 2) (p.origin + p.length + 2)))
  else
    .ok { p with
      records := p.records ++ [.word kind arg line (p.origin + p.length)]
      length := p.length + 2 }

/-- A statement's argument; left out, it is the literal 0 (R102). -/
def statementArg (sh : Shorthand) (line : Nat) : Option Text → Except AsmError Arg
  | some t => parseArg sh line t
  | none => .ok (.lit 0)

/-- The optional NAME of `#` (R106). A reserved word fails ParseFault (R100); any other token is recorded
unchecked (R108), and pass 2 resolves it or fails UndeclaredSymbol, a token that is no name among them, since
the symbol table holds names only (R106, R112; DEDUCED, log 17). DESIGN CHOICE (log 19): a malformed literal,
a signed number and a literal above 4095 are no exception, though R99 and R117 name ParseFault and
CapacityExceeded for such tokens. Unsafe for which kind of error is reported. -/
def endName (sh : Shorthand) (line : Nat) : Option Text → Except AsmError (Option Text)
  | some t => if isReserved sh t then .error (.parseFault line t) else .ok (some t)
  | none => .ok none

/-- What a line does to the scan: it goes on, before or after the origin is set, or `#` ends it. -/
inductive Scan where
  | before
  | going (p : Pass1)
  | ended (p : Pass1)
  deriving DecidableEq, Repr

/-- One line while the origin is unset: only an `@` line, or a line that is ignored (R104, R108). -/
def scanFirst (sh : Shorthand) (line : Nat) (ts : List Text) : Except AsmError Scan := do
  match ← classify sh line ts with
  | .ignored => return .before
  | .origin a =>
    let v ← parseOrigin sh line a
    return .going { origin := v, length := 0, symtab := [], records := [] }
  | _ => .error (.parseFault line (ts.headD []))

/-- One line once the origin is set (R103 to R106, R108). -/
def scanLine (sh : Shorthand) (line : Nat) (ts : List Text) (p : Pass1) : Except AsmError Scan := do
  match ← classify sh line ts with
  | .ignored => return .going p
  | .origin _ => .error (.parseFault line ['@'])
  | .label name =>
    let p ← declare p name (p.origin + p.length) line
    return .going p
  | .constant name arg =>
    let name ← parseName sh line name
    let a ← parseArg sh line arg
    let p ← declare p name (p.origin + p.length) line
    let p ← reserve p .const a line
    return .going p
  | .statement op arg =>
    let a ← statementArg sh line arg
    let p ← reserve p (.instr op) a line
    return .going p
  | .endMark name =>
    let n ← endName sh line name
    return .ended { p with records := p.records ++ [.endMark n line (p.origin + p.length)] }

/-- The token a missing `#` reports (R108). -/
def endOfInput : Text :=
  ['<', 'e', 'n', 'd', ' ', 'o', 'f', ' ', 'i', 'n', 'p', 'u', 't', '>']

/-- The single left-to-right scan of the lines, numbered on from `line` (R108). Lines after `#` are
not read (R106); a source with no `#` fails after its last line. -/
def scan (sh : Shorthand) : List Text → Nat → Scan → Except AsmError Pass1
  | _, _, .ended p => .ok p
  | [], line, _ => .error (.parseFault line endOfInput)
  | l :: ls, line, .before =>
    match scanFirst sh line (tokens (stripComment l)) with
    | .ok st => scan sh ls (line + 1) st
    | .error e => .error e
  | l :: ls, line, .going p =>
    match scanLine sh line (tokens (stripComment l)) p with
    | .ok st => scan sh ls (line + 1) st
    | .error e => .error e

/-- Pass 1 (R108). -/
def pass1 (sh : Shorthand) (source : Text) : Except AsmError Pass1 :=
  scan sh (sourceLines source) 1 .before

/-! ### Pass 2 (R112 to R115) -/

/-- The value of an argument (R112). -/
def resolveArg (symtab : SymTab) (line : Nat) : Arg → Except AsmError Nat
  | .lit v => .ok v
  | .sym name =>
    match symtab.find name with
    | some a => .ok a
    | none => .error (.undeclaredSymbol line name)

/-- The word of a resolved record (R113). -/
def wordOfRecord : WordKind → Nat → Word
  | .instr op, v => wordOfFields op (BitVec.ofNat 12 v)
  | .const, v => BitVec.ofNat 16 v

/-- The body's words, in record order (R112, R113). The name of `#` is resolved and discarded. -/
def resolveRecords (symtab : SymTab) : List Record → Except AsmError (List Word)
  | [] => .ok []
  | .word kind arg line _ :: rest => do
    let v ← resolveArg symtab line arg
    let words ← resolveRecords symtab rest
    return wordOfRecord kind v :: words
  | .endMark name line _ :: rest => do
    match name with
    | some n => let _ ← resolveArg symtab line (.sym n)
    | none => pure ()
    resolveRecords symtab rest

/-- The bytes of words, each high byte first (R113). -/
def bytesOfWords : List Word → List Byte
  | [] => []
  | w :: ws => w.firstByte :: w.secondByte :: bytesOfWords ws

/-- Pass 2 (R112 to R115). DESIGN CHOICE (log 20): every record is resolved before the body's size is checked,
so a source with both mistakes fails UndeclaredSymbol. Unsafe for which of the two is reported. -/
def pass2 (p : Pass1) : Except AsmError Image := do
  let words ← resolveRecords p.symtab p.records
  if p.length / 2 > Config.maxImageWords then
    .error (.capacityExceeded (.body p.origin p.length (p.origin + p.length)))
  else
    let origin : Word := BitVec.ofNat 16 p.origin
    let n : Byte := BitVec.ofNat 8 (p.length / 2)
    return { origin := origin, length := n, checksum := headerChecksum origin n, body := bytesOfWords words }

/-- `assemble(source)` (R95): pass 2 runs only when pass 1 succeeds. -/
def assemble (sh : Shorthand) (source : Text) : Except AsmError Image := do
  let p ← pass1 sh source
  pass2 p

end Sys2Proof.Machine
end

