-- ==== Sys2Proof/Machine/Loader.lean ====
section
/-! DEFINITION. The loader's contract and the start of a run (spec/70_reset_and_hazards.md R134 to
R136, spec/10_state.md R29). -/

namespace Sys2Proof.Machine

/-- Why a load fails. -/
inductive LoadError where
  /-- CapacityExceeded (R136), with an origin, a length and an address (R119). DESIGN CHOICE (log 18): the
  length is the body's in bytes, `2N`, and the address is the one after the body, `origin + 2N`. -/
  | capacityExceeded (origin length addr : Nat)
  /-- The bytes are no program image (R116): the model's own refusal, since the loader's contract
  speaks of images only (log 14). Safe. -/
  | notAnImage
  deriving DecidableEq, Repr

/-- The taxonomy's kind of a load error (R119); none for the model's own refusal. -/
def LoadError.kind : LoadError → Option ErrorKind
  | .capacityExceeded _ _ _ => some .capacityExceeded
  | .notAnImage => none

/-- `load(bytes, origin)` (R135, R136): the body is copied to `Mem[origin ..]` and nothing else is
written; the checksum is not checked. Fails when `origin + 2N >= 4096`; what the failure then reports is
the model's choice (log 18; unsafe for a claim about the reported values). -/
def load (img : Image) (mem : Memory) : Except LoadError Memory :=
  let origin := img.origin.toNat
  let bytes := 2 * img.length.toNat
  if img.bodyFits = false then .error .notAnImage
  else if origin + bytes ≥ Config.memSize then
    .error (.capacityExceeded origin bytes (origin + bytes))
  else .ok (mem.writeBytes origin img.body)

/-- The open parameters of a launch (R5, R134). -/
structure LaunchParams where
  /-- MEM_INIT (decision D23). -/
  memInit : Memory
  /-- AC_INIT (decision D21). -/
  acInit : Bits12
  /-- ENTRY (decision D22); the image's origin when none is given (R135). -/
  entry : Option Bits12
  /-- GD_MODE (R92). -/
  gdMode : GdMode
  /-- HOST, the input strings (decision D39). -/
  input : List Text
  /-- HOST, the resume signal (decision D39). -/
  resumeLine : List Bool
  deriving DecidableEq, Repr

/-- The entry point of a launch (R135). -/
def entryOf (img : Image) (p : LaunchParams) : Nat :=
  match p.entry with
  | some e => e.toNat
  | none => img.origin.toNat

/-- `launch` (R134): the state a run of an image starts in, or the loader's failure. With an odd
ENTRY the run state is FAULTED and PC was not written (log 15). -/
def launch (img : Image) (p : LaunchParams) : Except LoadError State := do
  let mem ← load img p.memInit
  let entry := entryOf img p
  let oddEntry := decide (entry % 2 = 1)
  return {
    ac := p.acInit
    pc := if oddEntry then BitVec.ofNat 13 (2 * Config.halfPcUnlaunched.val) else BitVec.ofNat 13 entry
    mem := mem
    run := if oddEntry then .faulted (.invalidAddress entry) (BitVec.ofNat 13 entry) p.acInit else .running
    out := []
    gdMode := p.gdMode
    input := p.input
    resumeLine := p.resumeLine }

/-- `launch` from the bytes of an image (R134, R135). -/
def launchBytes (bytes : List Byte) (p : LaunchParams) : Except LoadError State :=
  match Image.ofBytes bytes with
  | some img => launch img p
  | none => .error .notAnImage

end Sys2Proof.Machine
end

