-- ==== Sys2Proof/Safety.lean ====
section
/-! DEFINITION. What the spec promises of every state a run reaches, and how a run ends. -/

namespace Sys2Proof.Machine

/-- PC is even and in `0..4096` (R18). -/
def State.pcOk (s : State) : Prop := s.pc.toNat % 2 = 0 ∧ s.pc.toNat ≤ Config.memSize

/-- Every emitted value is a value of AC, in `-2048..2047` (R28, R93). -/
def State.outOk (s : State) : Prop := ∀ v ∈ s.out, -2048 ≤ v ∧ v ≤ 2047

/-- A fault report holds PC and AC at fault time, and neither changes afterwards (R126). -/
def State.reportOk (s : State) : Prop :=
  ∀ e pc ac, s.run = .faulted e pc ac → pc = s.pc ∧ ac = s.ac

/-- The invariant of a run: R18 for PC, the canonical form for memory, R28 for the output history,
R126 for a fault report. That AC stays in `-2048..2047` (R15) its type says. -/
structure State.Inv (s : State) : Prop where
  pc : s.pcOk
  mem : s.mem.wf = true
  out : s.outOk
  report : s.reportOk

/-- The run has ended (R72): TERMINATED or FAULTED. A CPU that waits has not ended. -/
def State.ended (s : State) : Bool :=
  match s.run with
  | .terminated => true
  | .faulted _ _ _ => true
  | .running => false
  | .haltedWaiting _ => false

/-- A clean end (R72): reached only by OS 0. -/
def State.endedCleanly (s : State) : Bool := s.run == .terminated

/-- The observable result of a run (R72). -/
structure RunResult where
  run : RunState
  pc : PcBits
  ac : Bits12
  mem : Memory
  out : List Int
  deriving DecidableEq, Repr

/-- What of a state is observable (R27, R72): all of it but the host's own future and the
configuration. -/
def State.result (s : State) : RunResult :=
  { run := s.run, pc := s.pc, ac := s.ac, mem := s.mem, out := s.out }

/-- After `n` steps from `s` the run has ended in `t` (R72). -/
def RunEnds (n : Nat) (s t : State) : Prop := Sys2Proof.core.run n s = .next t ∧ t.ended = true

end Sys2Proof.Machine
end

