-- ==== Sys2Proof/Certificates/Slice0/Obligations.lean ====
section
/-! DEFINITION. The statements for the provers. Each cites the rules of spec/ it rests on; OBLIGATIONS.json
lists them. The vocabulary below is written from the spec's formulas, not from the model's meanings. -/

open Sys2Proof Sys2Proof.Machine

namespace Sys2Proof.Claims

/-- The two cells at `a`, `a + 1` as one big-endian number, `Mem[a] * 256 + Mem[a+1]` (R11). -/
def memWord (m : Memory) (a : Nat) : Nat := (m.read a).toNat * 256 + (m.read (a + 1)).toNat

/-- The data operand in R76's second form, `sext_12((Mem[addr] mod 16) * 256 + Mem[addr+1])`. -/
def dataOperand (s : State) (a : Nat) : Int :=
  sext12 ((s.mem.read a).toNat % 16 * 256 + (s.mem.read (a + 1)).toNat)

/-- `s` with the error `e` entered, and nothing else changed (R126). -/
def faultedWith (s : State) (e : CpuError) : State := { s with run := .faulted e s.pc s.ac }

/-- The instruction a step at `s` fetches and decodes (R57, R66). -/
def fetchedInstr (s : State) : Instr := decodeWord (BitVec.ofNat 16 (memWord s.mem s.pc.toNat))

/-- The state a fetched instruction runs on: PC past it (R66), and the model's own resume line moved
on by one step (log 5). -/
def fetchedState (s : State) : State :=
  { s with pc := BitVec.ofNat 13 (s.pc.toNat + 2), resumeLine := s.resumeLine.tail }

/-- The parity check of a PC target (R67, R122). -/
def targetError (v : Nat) : Option CpuError := if v % 2 = 1 then some (.invalidAddress v) else none

/-- The range check of a two-byte data access, then the checks after it (R121, R127). -/
def rangeThen (a : Bits12) (rest : Option CpuError) : Option CpuError :=
  if a = 4095 then some (.outOfRange 4096) else rest

/-- The error an instruction raises on the fetched state `s`, if any, in the order of R127: the range
check (R121), the value check (R123, R124, R125), the parity check (R122). -/
def instrError (s : State) : Instr → Option CpuError
  | .jmp a => targetError a.toNat
  | .jz a => if s.ac.toInt = 0 then targetError a.toNat else none
  | .jn a => if s.ac.toInt < 0 then targetError a.toNat else none
  | .lv _ => none
  | .add a => rangeThen a none
  | .sub a => rangeThen a none
  | .mul a => rangeThen a none
  | .div a => rangeThen a (if dataOperand s a.toNat = 0 then some (.divideByZero a.toNat) else none)
  | .ld a => rangeThen a none
  | .mm a => rangeThen a none
  | .sc a => rangeThen a (targetError (a.toNat + 2))
  | .rs a =>
    rangeThen a
      (if (s.mem.read a.toNat).toNat > 0xF then some (.overflow a.toNat)
      else targetError (memWord s.mem a.toNat))
  | .hm _ => none
  | .gd _ =>
    match s.gdMode, awaitInput s.input with
    | .pc, some (v, _) => targetError v
    | _, _ => none
  | .pd _ => none
  | .os n => if n = 0 then none else some (.unimplemented n.toNat)

/-- The error a step of the CPU raises, if any (R121 to R127): the fetch's range check first. -/
def stepError (s : State) : Option CpuError :=
  match s.run with
  | .running => if s.pc.toNat + 2 > 4096 then some (.outOfRange s.pc.toNat) else instrError s (fetchedInstr s)
  | .haltedWaiting t => if s.resumeLine.head? = some true then targetError t.toNat else none
  | .terminated => none
  | .faulted _ _ _ => none

/-- PC at fault time (R126): past the instruction, when its fetch completed; else as it was. -/
def faultPc (s : State) : Nat :=
  if s.run = .running ∧ s.pc.toNat + 2 ≤ 4096 then s.pc.toNat + 2 else s.pc.toNat

/-- The instructions that read AC (R16). -/
def readsAc : Instr → Bool
  | .jz _ => true
  | .jn _ => true
  | .add _ => true
  | .sub _ => true
  | .mul _ => true
  | .div _ => true
  | .mm _ => true
  | .pd _ => true
  | _ => false

/-- The instructions that write AC (R16). -/
def writesAc (mode : GdMode) : Instr → Bool
  | .lv _ => true
  | .add _ => true
  | .sub _ => true
  | .mul _ => true
  | .div _ => true
  | .ld _ => true
  | .gd _ => mode == .ac
  | _ => false

/-- The instructions that write memory (R46). -/
def writesMem : Instr → Bool
  | .mm _ => true
  | .sc _ => true
  | _ => false

/-- The instructions that may write PC besides the fetch (R20); a GD that waits takes the fetch's
increment back (R27, log 6). -/
def writesPc : Instr → Bool
  | .jmp _ => true
  | .jz _ => true
  | .jn _ => true
  | .sc _ => true
  | .rs _ => true
  | .gd _ => true
  | _ => false

/-- PD, the one instruction that emits (R28). -/
def emits : Instr → Bool
  | .pd _ => true
  | _ => false

/-- GD, the one instruction that reads the input channel (R32). -/
def readsInput : Instr → Bool
  | .gd _ => true
  | _ => false

/-- A fault record without its AC report. -/
def runWithoutAc : RunState → RunState
  | .faulted e pc _ => .faulted e pc 0
  | r => r

/-- The names the records of pass 1 refer to (R112). -/
def referencedNames : List Record → List Text
  | [] => []
  | .word _ (.sym n) _ _ :: rest => n :: referencedNames rest
  | .word _ (.lit _) _ _ :: rest => referencedNames rest
  | .endMark (some n) _ _ :: rest => n :: referencedNames rest
  | .endMark none _ _ :: rest => referencedNames rest

/-- The 16 mnemonics of R60 with their opcode values. -/
def mnemonicRows : List (Text × Opcode) :=
  [("JMP".toList, 0), ("JZ".toList, 1), ("JN".toList, 2), ("LV".toList, 3), ("ADD".toList, 4),
   ("SUB".toList, 5), ("MUL".toList, 6), ("DIV".toList, 7), ("LD".toList, 8), ("MM".toList, 9),
   ("SC".toList, 10), ("RS".toList, 11), ("HM".toList, 12), ("GD".toList, 13), ("PD".toList, 14),
   ("OS".toList, 15)]

/-- `t` spells the upper-case `name`, each letter in either case (R64). -/
def Spells (t name : Text) : Prop := List.Forall₂ (fun c d => c = d ∨ c = d.toLower) t name

/-- Whether the tokens of a line declare `name` (R103, R105): a bare label, or `NAME K ARG`. -/
def declares (ts : List Text) (name : Text) : Prop :=
  ts = [name] ∨ ∃ k arg, isK k = true ∧ ts = [name, k, arg]

/-- Whether the argument of the line, if it declares a constant, is an argument (R99, R102). -/
def argReads (sh : Shorthand) (line : Nat) (ts : List Text) : Prop :=
  ∀ name k arg, ts = [name, k, arg] → ∃ a, parseArg sh line arg = .ok a

end Sys2Proof.Claims

open Sys2Proof.Claims

/-! ### Encoding -/

/-- Decode and encode agree on every instruction (R55 to R57, R60). -/
def Obligations.DecodeInvertsEncode : Prop :=
  ∀ (i : Instr) (rest : List Byte), i.wf = true →
    decode (encodeBytes i ++ rest) = .ok (i, rest) ∧ decodeWord (encode i) = i ∧
      decodeTableWord 16 (encode i).toNat = some i

/-- The spec's own inference R61, from R60's table: decoding is total, and every word is the encoding of
exactly one instruction. -/
def Obligations.EveryWordIsOneInstruction : Prop :=
  ∀ (b0 b1 : Byte) (rest : List Byte),
    ∃ i : Instr, decode (b0 :: b1 :: rest) = .ok (i, rest) ∧
      ∀ j : Instr, encodeBytes j = [b0, b1] ↔ j = i

/-- R57: the fields of a word, from its two bytes, and the operation the table gives. -/
def Obligations.DecodeReadsTheFields : Prop :=
  ∀ b0 b1 : Byte,
    (decodeWord (wordOfBytes b0 b1)).opcode.toNat = b0.toNat / 16 ∧
    (decodeWord (wordOfBytes b0 b1)).operand.toNat = b0.toNat % 16 * 256 + b1.toNat ∧
    (decodeWord (wordOfBytes b0 b1)).operand.toNat < 4096

/-- The opcode map (30_encoding.md section 3): the row of each of the 16 opcode values. -/
def Obligations.OpcodeMapRows : Prop :=
  ∀ x : Bits12,
    decodeWord (BitVec.ofNat 16 (0x0000 + x.toNat)) = .jmp x ∧
    decodeWord (BitVec.ofNat 16 (0x1000 + x.toNat)) = .jz x ∧
    decodeWord (BitVec.ofNat 16 (0x2000 + x.toNat)) = .jn x ∧
    decodeWord (BitVec.ofNat 16 (0x3000 + x.toNat)) = .lv x ∧
    decodeWord (BitVec.ofNat 16 (0x4000 + x.toNat)) = .add x ∧
    decodeWord (BitVec.ofNat 16 (0x5000 + x.toNat)) = .sub x ∧
    decodeWord (BitVec.ofNat 16 (0x6000 + x.toNat)) = .mul x ∧
    decodeWord (BitVec.ofNat 16 (0x7000 + x.toNat)) = .div x ∧
    decodeWord (BitVec.ofNat 16 (0x8000 + x.toNat)) = .ld x ∧
    decodeWord (BitVec.ofNat 16 (0x9000 + x.toNat)) = .mm x ∧
    decodeWord (BitVec.ofNat 16 (0xA000 + x.toNat)) = .sc x ∧
    decodeWord (BitVec.ofNat 16 (0xB000 + x.toNat)) = .rs x ∧
    decodeWord (BitVec.ofNat 16 (0xC000 + x.toNat)) = .hm x ∧
    decodeWord (BitVec.ofNat 16 (0xD000 + x.toNat)) = .gd x ∧
    decodeWord (BitVec.ofNat 16 (0xE000 + x.toNat)) = .pd x ∧
    decodeWord (BitVec.ofNat 16 (0xF000 + x.toNat)) = .os x

/-- Words of the spec's decode table (95_test_vectors.md section 2.1) decode to its rows. -/
def Obligations.SampleWordsDecode : Prop :=
  decode [0x00, 0x00] = .ok (.jmp 0x000, []) ∧ decode [0x3F, 0xF9] = .ok (.lv 0xFF9, []) ∧
    decode [0x61, 0x16] = .ok (.mul 0x116, []) ∧ decode [0x9F, 0xFF] = .ok (.mm 0xFFF, []) ∧
    decode [0xA1, 0x0A] = .ok (.sc 0x10A, []) ∧ decode [0xC0, 0x30] = .ok (.hm 0x030, []) ∧
    decode [0xD1, 0x23] = .ok (.gd 0x123, []) ∧ decode [0xFF, 0xFF] = .ok (.os 0xFFF, [])

/-! ### Memory and numbers -/

/-- R11, R39: what the memory primitives read and write, their frame, and their range requirement.
Every write keeps the canonical form. -/
def Obligations.MemoryPrimitives : Prop :=
  ∀ (m : Memory) (a : Nat), m.wf = true →
    (if a + 1 ≤ 4096 then
      memReadByte m a = .ok (m.read a) ∧
      ∀ v : Byte, ∃ m', memWriteByte m a v = .ok m' ∧ m'.wf = true ∧ m'.read a = v ∧
        ∀ x, x ≠ a → m'.read x = m.read x
    else ∃ e, memReadByte m a = .error (.outOfRange e) ∧
      ∀ v : Byte, memWriteByte m a v = .error (.outOfRange e)) ∧
    (if a + 2 ≤ 4096 then
      (∃ w, memReadWord m a = .ok w ∧ w.toNat = (m.read a).toNat * 256 + (m.read (a + 1)).toNat) ∧
      ∀ v : Word, ∃ m', memWriteWord m a v = .ok m' ∧ m'.wf = true ∧
        (m'.read a).toNat = v.toNat / 256 ∧ (m'.read (a + 1)).toNat = v.toNat % 256 ∧
        ∀ x, x ≠ a → x ≠ a + 1 → m'.read x = m.read x
    else ∃ e, memReadWord m a = .error (.outOfRange e) ∧
      ∀ v : Word, memWriteWord m a v = .error (.outOfRange e))

/-- R8: sign extension keeps the low 12 bits, lands in the range of AC, is the identity there, and is
idempotent. -/
def Obligations.SignExtensionLaws : Prop :=
  ∀ x : Int,
    sext12 x = (x % 4096 + 2048) % 4096 - 2048 ∧ -2048 ≤ sext12 x ∧ sext12 x ≤ 2047 ∧
    (BitVec.ofInt 12 (sext12 x) = BitVec.ofInt 12 x) ∧ sext12 (sext12 x) = sext12 x ∧
    (-2048 ≤ x ∧ x ≤ 2047 → sext12 x = x) ∧
    (0 ≤ x ∧ x < 4096 → sext12 x = if x < 2048 then x else x - 4096)

/-- R10: the quotient's size is the quotient of the sizes, and its sign the product of the signs. -/
def Obligations.DivisionTruncatesTowardZero : Prop :=
  ∀ a b : Int, b ≠ 0 →
    (tdiv a b).natAbs = a.natAbs / b.natAbs ∧
    (if (a < 0 ↔ b < 0) ∨ a = 0 then 0 ≤ tdiv a b else tdiv a b ≤ 0)

/-- R76: the data operand, and where it cannot be read. -/
def Obligations.DataOperandReads : Prop :=
  ∀ (s : State) (a : Bits12),
    opnd s (addressOf a) =
      if a = 4095 then .error (.outOfRange 4096) else .ok (dataOperand s a.toNat)

/-! ### The instructions: result, errors and frame of each

A state is written as the fetched state `s` with the fields that change. What `{ s with … }` does not
name is unchanged: every other register, the output history, every byte of memory. -/

/-- R73. -/
def Obligations.JmpResult : Prop :=
  ∀ (addr : Bits12) (s : State),
    (encode (.jmp addr)).toNat = 0x0000 + addr.toNat ∧
    exec (.jmp addr) s = .next
      (if addr.toNat % 2 = 1 then faultedWith s (.invalidAddress addr.toNat)
      else { s with pc := BitVec.ofNat 13 addr.toNat })

/-- R74. -/
def Obligations.JzResult : Prop :=
  ∀ (addr : Bits12) (s : State),
    (encode (.jz addr)).toNat = 0x1000 + addr.toNat ∧
    exec (.jz addr) s = .next
      (if s.ac.toInt ≠ 0 then s
      else if addr.toNat % 2 = 1 then faultedWith s (.invalidAddress addr.toNat)
      else { s with pc := BitVec.ofNat 13 addr.toNat })

/-- R75. -/
def Obligations.JnResult : Prop :=
  ∀ (addr : Bits12) (s : State),
    (encode (.jn addr)).toNat = 0x2000 + addr.toNat ∧
    exec (.jn addr) s = .next
      (if 0 ≤ s.ac.toInt then s
      else if addr.toNat % 2 = 1 then faultedWith s (.invalidAddress addr.toNat)
      else { s with pc := BitVec.ofNat 13 addr.toNat })

/-- R81. -/
def Obligations.LvResult : Prop :=
  ∀ (val : Bits12) (s : State),
    (encode (.lv val)).toNat = 0x3000 + val.toNat ∧
    ∃ v : Bits12, v.toInt = sext12 val.toNat ∧ exec (.lv val) s = .next { s with ac := v }

/-- R82. -/
def Obligations.AddResult : Prop :=
  ∀ (addr : Bits12) (s : State),
    (encode (.add addr)).toNat = 0x4000 + addr.toNat ∧
    if addr = 4095 then exec (.add addr) s = .next (faultedWith s (.outOfRange 4096))
    else ∃ v : Bits12, v.toInt = sext12 (s.ac.toInt + dataOperand s addr.toNat) ∧
      exec (.add addr) s = .next { s with ac := v }

/-- R83. -/
def Obligations.SubResult : Prop :=
  ∀ (addr : Bits12) (s : State),
    (encode (.sub addr)).toNat = 0x5000 + addr.toNat ∧
    if addr = 4095 then exec (.sub addr) s = .next (faultedWith s (.outOfRange 4096))
    else ∃ v : Bits12, v.toInt = sext12 (s.ac.toInt - dataOperand s addr.toNat) ∧
      exec (.sub addr) s = .next { s with ac := v }

/-- R84. -/
def Obligations.MulResult : Prop :=
  ∀ (addr : Bits12) (s : State),
    (encode (.mul addr)).toNat = 0x6000 + addr.toNat ∧
    if addr = 4095 then exec (.mul addr) s = .next (faultedWith s (.outOfRange 4096))
    else ∃ v : Bits12, v.toInt = sext12 (s.ac.toInt * dataOperand s addr.toNat) ∧
      exec (.mul addr) s = .next { s with ac := v }

/-- R85. -/
def Obligations.DivResult : Prop :=
  ∀ (addr : Bits12) (s : State),
    (encode (.div addr)).toNat = 0x7000 + addr.toNat ∧
    if addr = 4095 then exec (.div addr) s = .next (faultedWith s (.outOfRange 4096))
    else if dataOperand s addr.toNat = 0 then
      exec (.div addr) s = .next (faultedWith s (.divideByZero addr.toNat))
    else ∃ v : Bits12, v.toInt = sext12 (Int.tdiv s.ac.toInt (dataOperand s addr.toNat)) ∧
      exec (.div addr) s = .next { s with ac := v }

/-- R86. -/
def Obligations.LdResult : Prop :=
  ∀ (addr : Bits12) (s : State),
    (encode (.ld addr)).toNat = 0x8000 + addr.toNat ∧
    if addr = 4095 then exec (.ld addr) s = .next (faultedWith s (.outOfRange 4096))
    else ∃ v : Bits12, v.toInt = dataOperand s addr.toNat ∧
      exec (.ld addr) s = .next { s with ac := v }

/-- R87. The bytes stored, at the operand's address, are those of the 16-bit image of AC. -/
def Obligations.MmResult : Prop :=
  ∀ (addr : Bits12) (s : State), s.mem.wf = true →
    (encode (.mm addr)).toNat = 0x9000 + addr.toNat ∧
    if addr = 4095 then exec (.mm addr) s = .next (faultedWith s (.outOfRange 4096))
    else ∃ m : Memory, exec (.mm addr) s = .next { s with mem := m } ∧ m.wf = true ∧
      ((m.read addr.toNat).toNat : Int) = s.ac.toInt % 65536 / 256 ∧
      ((m.read (addr.toNat + 1)).toNat : Int) = s.ac.toInt % 65536 % 256 ∧
      ∀ x, x ≠ addr.toNat → x ≠ addr.toNat + 1 → m.read x = s.mem.read x

/-- R88. PC on the fetched state is the return address. -/
def Obligations.ScResult : Prop :=
  ∀ (addr : Bits12) (s : State), s.mem.wf = true →
    (encode (.sc addr)).toNat = 0xA000 + addr.toNat ∧
    if addr = 4095 then exec (.sc addr) s = .next (faultedWith s (.outOfRange 4096))
    else if addr.toNat % 2 = 1 then
      exec (.sc addr) s = .next (faultedWith s (.invalidAddress (addr.toNat + 2)))
    else ∃ m : Memory,
      exec (.sc addr) s = .next { s with mem := m, pc := BitVec.ofNat 13 (addr.toNat + 2) } ∧
      m.wf = true ∧ (m.read addr.toNat).toNat = s.pc.toNat / 256 ∧
      (m.read (addr.toNat + 1)).toNat = s.pc.toNat % 256 ∧
      ∀ x, x ≠ addr.toNat → x ≠ addr.toNat + 1 → m.read x = s.mem.read x

/-- R89. -/
def Obligations.RsResult : Prop :=
  ∀ (addr : Bits12) (s : State),
    (encode (.rs addr)).toNat = 0xB000 + addr.toNat ∧
    exec (.rs addr) s = .next
      (if addr = 4095 then faultedWith s (.outOfRange 4096)
      else if (s.mem.read addr.toNat).toNat > 0xF then faultedWith s (.overflow addr.toNat)
      else if memWord s.mem addr.toNat % 2 = 1 then
        faultedWith s (.invalidAddress (memWord s.mem addr.toNat))
      else { s with pc := BitVec.ofNat 13 (memWord s.mem addr.toNat) })

/-- HM's own step, and the resume (44_system_io.md, the rule of HM). The signal is read from the model's own
resume line (log 5); that a step without the signal answers the same state is the model's reading of the
wait (log 6, DEDUCED: 40_cycle.md section 4 has no step there). -/
def Obligations.HmAndResume : Prop :=
  (∀ (addr : Bits12) (s : State),
    (encode (.hm addr)).toNat = 0xC000 + addr.toNat ∧
    exec (.hm addr) s = .next { s with run := .haltedWaiting addr }) ∧
  ∀ (t : Bits12) (s : State), s.run = .haltedWaiting t →
    step s = .next
      (if s.resumeLine.head? ≠ some true then { s with resumeLine := s.resumeLine.tail }
      else if t.toNat % 2 = 1 then
        faultedWith { s with resumeLine := s.resumeLine.tail } (.invalidAddress t.toNat)
      else { s with
        resumeLine := s.resumeLine.tail
        pc := BitVec.ofNat 13 t.toNat
        run := .running })

/-- GD (44_system_io.md, rule R92) once a valid string is to come: malformed strings before it are
discarded, its value is taken. The strings stand in the model's own field (log 4). -/
def Obligations.GdResult : Prop :=
  ∀ (x : Bits12) (s : State) (bad rest : List Text) (good : Text) (v : Nat),
    s.input = bad ++ good :: rest → (∀ b ∈ bad, parseInput b = none) → parseInput good = some v →
    (encode (.gd x)).toNat = 0xD000 + x.toNat ∧
    match s.gdMode with
    | .ac => ∃ a : Bits12, a.toInt = sext12 v ∧ exec (.gd x) s = .next { s with input := rest, ac := a }
    | .pc => exec (.gd x) s = .next
        (if v % 2 = 1 then faultedWith { s with input := rest } (.invalidAddress v)
        else { s with input := rest, pc := BitVec.ofNat 13 v })

/-- While no valid string is to come, GD's step does not happen: the state is the one before it
(10_state.md section 4), but for the model's own resume line (log 5). That this is a step of the machine
is the model's reading (log 6, DEDUCED), and the strings to come stand in the model's own field (log 4). -/
def Obligations.GdWaitsUnchanged : Prop :=
  ∀ (x : Bits12) (s : State), s.run = .running → s.pc.toNat + 2 ≤ 4096 → fetchedInstr s = .gd x →
    (∀ b ∈ s.input, parseInput b = none) →
    step s = .next { s with resumeLine := s.resumeLine.tail }

/-- The strings GD accepts, and their values (44_system_io.md, GD input validation). What counts as
white space is the model's `isInputSpace` (log 10). -/
def Obligations.InputStringsAccepted : Prop :=
  ∀ (t : Text) (v : Nat),
    parseInput t = some v ↔
      ∃ pre core post : Text, t = pre ++ core ++ post ∧
        (∀ c ∈ pre, isInputSpace c = true) ∧ (∀ c ∈ post, isInputSpace c = true) ∧ v ≤ 4095 ∧
        ∃ ds : List Nat, ds ≠ [] ∧
          ((core.map decDigit = ds.map some ∧ v = ds.foldl (fun n d => 10 * n + d) 0) ∨
          (∃ hs : Text, core = '/' :: hs ∧ hs.map hexDigit = ds.map some ∧
            v = ds.foldl (fun n d => 16 * n + d) 0))

/-- R93. -/
def Obligations.PdResult : Prop :=
  ∀ (x : Bits12) (s : State),
    (encode (.pd x)).toNat = 0xE000 + x.toNat ∧
    exec (.pd x) s = .next { s with out := s.out ++ [s.ac.toInt] }

/-- R94. -/
def Obligations.OsResult : Prop :=
  ∀ (n : Bits12) (s : State),
    (encode (.os n)).toNat = 0xF000 + n.toNat ∧
    exec (.os n) s = .next
      (if n = 0 then { s with run := .terminated } else faultedWith s (.unimplemented n.toNat))

/-! ### Arithmetic laws of the instructions -/

/-- The spec's own inference R78, from R77: ADD and SUB are addition and subtraction modulo 4096, and SUB
undoes ADD. -/
def Obligations.AddSubModulo4096 : Prop :=
  ∀ (addr : Bits12) (s : State), addr ≠ 4095 →
    ∃ t u r : State, exec (.add addr) s = .next t ∧ exec (.sub addr) s = .next u ∧
      t.ac = s.ac + BitVec.ofInt 12 (dataOperand s addr.toNat) ∧
      u.ac = s.ac - BitVec.ofInt 12 (dataOperand s addr.toNat) ∧
      exec (.sub addr) t = .next r ∧ r = s

/-- The spec's own inference R79, from R77: MUL keeps the low 12 bits of the exact product, read as signed. -/
def Obligations.MulKeepsLowProduct : Prop :=
  ∀ (addr : Bits12) (s : State), addr ≠ 4095 →
    ∃ t : State, exec (.mul addr) s = .next t ∧
      t.ac = s.ac * BitVec.ofInt 12 (dataOperand s addr.toNat) ∧
      (t.ac.toInt - s.ac.toInt * dataOperand s addr.toNat) % 4096 = 0

/-- R80: the quotient is the truncated one, but for the one quotient that does not fit, which wraps. -/
def Obligations.DivWrapsOnlyAtMinusOne : Prop :=
  ∀ (addr : Bits12) (s : State), addr ≠ 4095 →
    if dataOperand s addr.toNat = 0 then
      exec (.div addr) s = .next (faultedWith s (.divideByZero addr.toNat))
    else ∃ t : State, exec (.div addr) s = .next t ∧
      t.ac.toInt =
        if s.ac.toInt = -2048 ∧ dataOperand s addr.toNat = -1 then -2048
        else Int.tdiv s.ac.toInt (dataOperand s addr.toNat)

/-- LD after MM at the same address gives back AC, whatever AC holds in between
(42_accumulator.md sections 1 and 2). -/
def Obligations.LdAfterMmRestoresAc : Prop :=
  ∀ (addr x : Bits12) (s : State), s.mem.wf = true → addr ≠ 4095 →
    ∃ t u : State, exec (.mm addr) s = .next t ∧ exec (.ld addr) { t with ac := x } = .next u ∧
      u.ac = s.ac

/-- RS at a slot that SC wrote sets PC to what it was right after SC's fetch, from any state that has
SC's memory (43_subroutine.md; 90_conflicts.md C14). -/
def Obligations.RsAfterScReturns : Prop :=
  ∀ (addr : Bits12) (s : State), s.mem.wf = true → s.pcOk → s.pc.toNat < 4096 →
    addr.toNat % 2 = 0 → addr.toNat ≤ 4092 →
    ∃ t : State, exec (.sc addr) s = .next t ∧ t.pc.toNat = addr.toNat + 2 ∧
      ∀ u : State, u.mem = t.mem → exec (.rs addr) u = .next { u with pc := s.pc }

/-- A word stored by MM or SC at an even address is what the next fetch there reads
(20_memory.md section 6). -/
def Obligations.StoresReachTheNextFetch : Prop :=
  ∀ (addr : Bits12) (s u : State), s.mem.wf = true → addr.toNat % 2 = 0 → u.pc.toNat = addr.toNat →
    (∀ t, exec (.mm addr) s = .next t → u.mem = t.mem →
      ∃ w u', fetch u = .ok (w, u') ∧ (w.toNat : Int) = s.ac.toInt % 65536) ∧
    (∀ t, exec (.sc addr) s = .next t → u.mem = t.mem →
      ∃ w u', fetch u = .ok (w, u') ∧ w.toNat = s.pc.toNat)

/-! ### Fetch and step -/

/-- R66: the fetch. -/
def Obligations.FetchReadsAndAdvances : Prop :=
  ∀ s : State,
    (if s.pc.toNat + 2 > 4096 then fetch s = .error (.outOfRange s.pc.toNat)
    else ∃ p : PcBits, p.toNat = s.pc.toNat + 2 ∧
      fetch s = .ok (BitVec.ofNat 16 (memWord s.mem s.pc.toNat), { s with pc := p })) ∧
    (s.pcOk → ((∃ e, fetch s = .error e) ↔ s.pc.toNat = 4096))

/-- A step runs the decoded instruction (40_cycle.md section 3): when the bytes at PC decode to `i`,
step is exec of `i` on the fetched state, whose PC is past the instruction. The resume line is the
model's own (log 5). -/
def Obligations.StepRunsTheDecodedInstruction : Prop :=
  ∀ (s : State) (i : Instr) (rest : List Byte),
    s.run = .running → s.pc.toNat + 2 ≤ 4096 →
    decode [s.mem.read s.pc.toNat, s.mem.read (s.pc.toNat + 1)] = .ok (i, rest) → i.wf = true →
    step s = exec i (fetchedState s)

/-- The checked PC write (40_cycle.md section 2). -/
def Obligations.OddPcIsNeverWritten : Prop :=
  ∀ (v : Nat) (s : State), v ≤ 4096 →
    if v % 2 = 1 then setPc v s = .error (.invalidAddress v)
    else ∃ p : PcBits, p.toNat = v ∧ setPc v s = .ok { s with pc := p }

/-! ### Errors -/

/-- Which error a step raises, at every running or waiting state: exactly the first that applies, in the
order of the checks, and none when none applies; an error leaves AC (60_exceptions.md sections 2 and 3).
The clauses of GD and of HM's resume read the model's own host fields (log 4, log 5), and that a step
answers a next state in a wait is the model's reading (log 6). -/
def Obligations.ErrorsAreExactlyTheListed : Prop :=
  ∀ s : State, (s.run = .running ∨ ∃ t, s.run = .haltedWaiting t) →
    ∃ t : State, step s = .next t ∧
      match stepError s with
      | some e => t.run = .faulted e (BitVec.ofNat 13 (faultPc s)) s.ac ∧ t.ac = s.ac
      | none => ∀ e pc ac, t.run ≠ .faulted e pc ac

/-- R126: fault entry is precise and terminal. -/
def Obligations.FaultEntryIsPrecise : Prop :=
  ∀ (s t : State) (e : CpuError) (pc : PcBits) (ac : Bits12),
    step s = .next t → t.run = .faulted e pc ac →
    pc.toNat = faultPc s ∧ ac = s.ac ∧ t.pc = pc ∧ t.ac = s.ac ∧ t.mem = s.mem ∧ t.out = s.out ∧
      t.gdMode = s.gdMode ∧ ∀ u, step t ≠ .next u

/-! ### Who reads and writes what -/

/-- The spec's own inference R16, from the instruction rules: which instructions write AC and which read it.
An instruction that does not read AC does the same, but for AC itself and for the AC of a fault report,
whatever AC holds. -/
def Obligations.AcReadersAndWriters : Prop :=
  ∀ (i : Instr) (s : State) (x : Bits12),
    ∃ t u : State, exec i s = .next t ∧ exec i { s with ac := x } = .next u ∧
      (writesAc s.gdMode i = false → t.ac = s.ac) ∧
      (∀ e pc ac, s.run = .running → t.run = .faulted e pc ac → t.ac = s.ac) ∧
      (readsAc i = false →
        u.pc = t.pc ∧ u.mem = t.mem ∧ u.out = t.out ∧ u.input = t.input ∧
        runWithoutAc u.run = runWithoutAc t.run ∧
        (u.ac = t.ac ∨ (t.ac = s.ac ∧ u.ac = x)))

/-- The writers of memory, PC, the output history and the run state; GD_MODE is written by no instruction
(10_state.md sections 2 to 4 and 20_memory.md section 4). The list of PC's writers is the spec's own
inference R20, from the instruction rules; GD is among them also for its wait (log 6). The clauses about
the input and the resume line are about the model's own fields (log 4, log 5). -/
def Obligations.WritersOfEachState : Prop :=
  ∀ (i : Instr) (s : State),
    ∃ t : State, exec i s = .next t ∧ t.gdMode = s.gdMode ∧ t.resumeLine = s.resumeLine ∧
      (writesMem i = false → ∀ a, t.mem.read a = s.mem.read a) ∧
      (writesPc i = false → t.pc = s.pc) ∧
      (emits i = false → t.out = s.out) ∧
      (readsInput i = false → t.input = s.input) ∧
      (t.run = s.run ∨ (∃ a, i = .hm a ∧ t.run = .haltedWaiting a) ∨
        (i = .os 0 ∧ t.run = .terminated) ∨ ∃ e, t.run = .faulted e s.pc s.ac)

/-- The run states' transitions (10_state.md section 4; 40_cycle.md section 4): TERMINATED is entered
by OS 0 alone, HALTED_WAITING by HM alone and kept until the signal, and nothing leaves TERMINATED or
FAULTED. The signal is read from the model's own resume line (log 5); that a step of the wait leads to
HALTED_WAITING again is the model's reading (log 6, DEDUCED). -/
def Obligations.RunStateTransitions : Prop :=
  (∀ s t : State, step s = .next t →
    (t.run = .terminated ↔
      s.run = .running ∧ s.pc.toNat + 2 ≤ 4096 ∧ fetchedInstr s = .os 0) ∧
    ∀ a, t.run = .haltedWaiting a ↔
      (s.run = .running ∧ s.pc.toNat + 2 ≤ 4096 ∧ fetchedInstr s = .hm a) ∨
      (s.run = .haltedWaiting a ∧ s.resumeLine.head? ≠ some true)) ∧
  ∀ s : State, s.ended = true → ∀ t, step s ≠ .next t

/-! ### Invariants, waits, the resume signal -/

/-- The reset state meets the invariant. -/
def Obligations.InvAtReset : Prop := State.reset.Inv

/-- Every step keeps the invariant: PC even and in `0..4096`, memory canonical, emitted values in the
range of AC, a fault report equal to PC and AC. -/
def Obligations.EveryStepKeepsInv : Prop :=
  ∀ s t : State, s.Inv → step s = .next t → t.Inv

/-- What reset leaves of what the spec fixes (10_state.md section 5): RUNNING, an empty output history,
the AC mode of GD; and no cell is listed. -/
def Obligations.ResetState : Prop :=
  State.reset.run = .running ∧ State.reset.out = [] ∧ State.reset.gdMode = .ac ∧ State.reset.mem = []

/-- Every piece of state survives a wait unchanged, for as long as the host does not answer
(60_exceptions.md section 5): for HM, while no resume signal comes; for GD, while no valid string is to
come. That the wait is `n` steps of the machine is the model's reading (log 6, DEDUCED: the spec has no step
there), so `n` counts the model's steps and no steps of the spec. What the host will do stands in the
model's own fields (log 4, log 5). -/
def Obligations.WaitsKeepTheState : Prop :=
  ∀ (n : Nat) (s : State),
    ((∃ t, s.run = .haltedWaiting t) ∧ (∀ b ∈ s.resumeLine.take n, b = false)) ∨
    (s.run = .running ∧ s.pc.toNat + 2 ≤ 4096 ∧ (∃ x, fetchedInstr s = .gd x) ∧
      ∀ b ∈ s.input, parseInput b = none) →
    Sys2Proof.core.run n s = .next { s with resumeLine := s.resumeLine.drop n }

/-- A resume signal outside HALTED_WAITING is ignored (10_state.md section 6). -/
def Obligations.StrayResumeIgnored : Prop :=
  ∀ s : State, (∀ t, s.run ≠ .haltedWaiting t) →
    resume s = s ∧
    ∀ (b b' : Bool) (l : List Bool),
      step { s with resumeLine := b :: l } = step { s with resumeLine := b' :: l }

/-! ### Loading and launching -/

/-- The loader copies the body to the origin and writes no other cell (70_reset_and_hazards.md
section 1). -/
def Obligations.LoadCopiesTheBody : Prop :=
  ∀ (img : Image) (m m' : Memory), m.wf = true → load img m = .ok m' →
    m'.wf = true ∧
    ∀ a, m'.read a =
      if img.origin.toNat ≤ a ∧ a < img.origin.toNat + 2 * img.length.toNat then
        img.body.getD (a - img.origin.toNat) 0
      else m.read a

/-- The start of a run (70_reset_and_hazards.md section 1): what each piece of state holds, and the
two launches that do not start. -/
def Obligations.LaunchStartsTheRun : Prop :=
  ∀ (img : Image) (p : LaunchParams),
    match load img p.memInit with
    | .error e => launch img p = .error e
    | .ok m =>
      if entryOf img p % 2 = 1 then
        ∃ s, launch img p = .ok s ∧
          s.run = .faulted (.invalidAddress (entryOf img p)) (BitVec.ofNat 13 (entryOf img p)) p.acInit ∧
          ∀ t, step s ≠ .next t
      else
        launch img p = .ok
          { ac := p.acInit, pc := BitVec.ofNat 13 (entryOf img p), mem := m, run := .running, out := [],
            gdMode := p.gdMode, input := p.input, resumeLine := p.resumeLine }

/-- A launch at an even entry from canonical memory starts in the invariant, so every state of the run
meets it. -/
def Obligations.LaunchedRunsKeepInv : Prop :=
  ∀ (img : Image) (p : LaunchParams) (s t : State) (n : Nat),
    p.memInit.wf = true → entryOf img p % 2 = 0 → launch img p = .ok s →
    Sys2Proof.core.run n s = .next t → t.Inv

/-! ### The assembler -/

/-- The form of every image the assembler produces (45_assembler.md sections 5 and 6, rules R114 to R116).
That it ends at or below address 4095 is the spec's own inference from R110's inequality. -/
def Obligations.AssembledImageForm : Prop :=
  ∀ (sh : Shorthand) (source : Text) (img : Image), assemble sh source = .ok img →
    img.origin.toNat ≤ 4095 ∧ img.origin.toNat + 2 * img.length.toNat ≤ 4095 ∧
    img.body.length = 2 * img.length.toNat ∧
    img.checksum.toNat =
      (img.origin.toNat / 256 + img.origin.toNat % 256 + img.length.toNat) % 256 ∧
    img.toBytes =
      BitVec.ofNat 8 (img.origin.toNat / 256) :: BitVec.ofNat 8 (img.origin.toNat % 256) :: img.length ::
        img.checksum :: img.body ∧
    Image.ofBytes img.toBytes = some img

/-- R136: when a load fails, and that the run then does not start; and, the spec's own inference from R110,
that every image the assembler produces loads. -/
def Obligations.AssembledImagesLoad : Prop :=
  (∀ (img : Image) (m : Memory), img.bodyFits = true →
    ((∃ o l a, load img m = .error (.capacityExceeded o l a)) ↔
      img.origin.toNat + 2 * img.length.toNat ≥ 4096) ∧
    ((∃ m', load img m = .ok m') ↔ img.origin.toNat + 2 * img.length.toNat < 4096)) ∧
  (∀ (img : Image) (p : LaunchParams) (e : LoadError), load img p.memInit = .error e →
    launch img p = .error e) ∧
  ∀ (sh : Shorthand) (source : Text) (img : Image) (m : Memory),
    assemble sh source = .ok img → ∃ m', load img m = .ok m'

/-- The source's worked example (R118), whole; its body bytes are the spec's own inference. -/
def Obligations.AssemblerExample : Prop :=
  (assemble [] "@ /000\nLD /005\n#\n".toList).map Image.toBytes =
    .ok [0x00, 0x00, 0x01, 0x01, 0x80, 0x05]

/-- The word the assembler makes of an instruction's record is the one the CPU decodes to that instruction;
and each of the 16 names of R60, in any letter case and with any SHORTHAND, is the mnemonic of its own
opcode and no symbol name; with no SHORTHAND there is no other mnemonic (45_assembler.md sections 2, 3 and
5; 30_encoding.md sections 3 and 5). -/
def Obligations.AssemblerAndDecoderAgree : Prop :=
  (∀ i : Instr, decodeWord (wordOfRecord (.instr i.opcode) i.operand.toNat) = i) ∧
  (∀ row ∈ mnemonicRows, ∀ (sh : Shorthand) (t : Text), Spells t row.1 →
    mnemonicOpcode sh t = some row.2 ∧ isName sh t = false) ∧
  ∀ (t : Text) (op : Opcode), mnemonicOpcode [] t = some op →
    ∃ row ∈ mnemonicRows, Spells t row.1 ∧ row.2 = op

/-- R109: a line that declares a name already in the table fails, with NameConflict unless its argument is
none; the failure ends pass 1 and the assembly with it; and NameConflict is raised for no other reason.
Which error such a line reports when its argument is none too is not said (log 12). -/
def Obligations.RedeclarationFailsNameConflict : Prop :=
  (∀ (sh : Shorthand) (l : Text) (ls : List Text) (line : Nat) (p : Pass1) (name : Text),
    isName sh name = true → declares (tokens (stripComment l)) name → name ∈ p.symtab.map Prod.fst →
    ∃ e, scan sh (l :: ls) line (.going p) = .error e ∧
      (argReads sh line (tokens (stripComment l)) → e = .nameConflict line name)) ∧
  (∀ (sh : Shorthand) (line : Nat) (ts : List Text) (p : Pass1) (i : Nat) (name : Text),
    scanLine sh line ts p = .error (.nameConflict i name) →
    i = line ∧ isName sh name = true ∧ declares ts name ∧ name ∈ p.symtab.map Prod.fst) ∧
  ∀ (sh : Shorthand) (source : Text) (e : AsmError), pass1 sh source = .error e → assemble sh source = .error e

/-- After pass 1 the table's names are distinct, and every symbol's address lies in the program
(45_assembler.md section 4). That the program ends at or below address 4095 is the spec's own inference
from R110's inequality. -/
def Obligations.SymbolsAreDistinct : Prop :=
  ∀ (sh : Shorthand) (source : Text) (p : Pass1), pass1 sh source = .ok p →
    (p.symtab.map Prod.fst).Nodup ∧ p.origin + p.length ≤ 4095 ∧ p.length % 2 = 0 ∧
    ∀ name a, (name, a) ∈ p.symtab → p.origin ≤ a ∧ a ≤ p.origin + p.length

/-- The operand of `#` (45_assembler.md sections 2, 3 and 5, rules R100, R106, R108, R112): a reserved word fails
ParseFault at its line; any other token ends the scan with a record of it; and an operand that is no name, or
a name the table lacks, makes the assembly fail UndeclaredSymbol, of it or of an earlier record. That this
covers tokens that are no names is the model's reading of R106 (log 17, DEDUCED); that it covers malformed
literals, signed numbers and literals above 4095 too (log 19), and that it comes before CapacityExceeded for
a body above 255 words (log 20), are the model's choices (DESIGN CHOICE). -/
def Obligations.EndOperandMustResolve : Prop :=
  (∀ (sh : Shorthand) (line : Nat) (t : Text) (p : Pass1),
    scanLine sh line [['#'], t] p =
      if isReserved sh t then .error (.parseFault line t)
      else .ok (.ended { p with
        records := p.records ++ [.endMark (some t) line (p.origin + p.length)] })) ∧
  ∀ (sh : Shorthand) (source : Text) (p : Pass1) (t : Text) (line addr : Nat),
    pass1 sh source = .ok p → .endMark (some t) line addr ∈ p.records →
    (isName sh t = false ∨ t ∉ p.symtab.map Prod.fst) →
    ∃ i name, assemble sh source = .error (.undeclaredSymbol i name) ∧
      name ∈ referencedNames p.records ∧ name ∉ p.symtab.map Prod.fst

/-- Pass 2 resolves a program exactly when every name it refers to is declared
(45_assembler.md section 5). -/
def Obligations.ResolutionNeedsDeclarations : Prop :=
  ∀ (symtab : SymTab) (records : List Record),
    ((∃ words, resolveRecords symtab records = .ok words) ↔
      ∀ name ∈ referencedNames records, ∃ a, symtab.find name = some a) ∧
    ∀ e, resolveRecords symtab records = .error e →
      ∃ line name, e = .undeclaredSymbol line name ∧ name ∈ referencedNames records ∧
        symtab.find name = none
end

