-- ==== Sys2Proof/Laws/Decode.lean ====
section
/-! SUPPORT. Fields and words: what the bit-field helpers of Decode.lean do. -/

namespace Sys2Proof

theorem wordOfBytes_toNat (b0 b1 : Byte) : (wordOfBytes b0 b1).toNat = b0.toNat * 256 + b1.toNat := by
  simp only [wordOfBytes, BitVec.toNat_ofNat]; omega

@[simp] theorem wordOfBytes_firstByte (b0 b1 : Byte) : (wordOfBytes b0 b1).firstByte = b0 := by
  apply BitVec.eq_of_toNat_eq
  simp only [Word.firstByte, wordOfBytes_toNat, BitVec.toNat_ofNat]; omega

@[simp] theorem wordOfBytes_secondByte (b0 b1 : Byte) : (wordOfBytes b0 b1).secondByte = b1 := by
  apply BitVec.eq_of_toNat_eq
  simp only [Word.secondByte, wordOfBytes_toNat, BitVec.toNat_ofNat]; omega

@[simp] theorem wordOfBytes_split (w : Word) : wordOfBytes w.firstByte w.secondByte = w := by
  apply BitVec.eq_of_toNat_eq
  simp only [Word.firstByte, Word.secondByte, wordOfBytes_toNat, BitVec.toNat_ofNat]; omega

theorem Word.firstByte_toNat (w : Word) : w.firstByte.toNat = w.toNat / 256 := by
  simp only [Word.firstByte, BitVec.toNat_ofNat]; omega

theorem Word.secondByte_toNat (w : Word) : w.secondByte.toNat = w.toNat % 256 := by
  simp only [Word.secondByte, BitVec.toNat_ofNat]

theorem wordOfFields_toNat (op : Opcode) (x : Bits12) :
    (wordOfFields op x).toNat = op.toNat * 4096 + x.toNat := by
  simp only [wordOfFields, BitVec.toNat_ofNat]; omega

@[simp] theorem opField_wordOfFields (op : Opcode) (x : Bits12) : opField (wordOfFields op x) = op := by
  apply BitVec.eq_of_toNat_eq
  simp only [opField, wordOfFields_toNat, BitVec.toNat_ofNat]; omega

@[simp] theorem operandField_wordOfFields (op : Opcode) (x : Bits12) :
    operandField (wordOfFields op x) = x := by
  apply BitVec.eq_of_toNat_eq
  simp only [operandField, wordOfFields_toNat, BitVec.toNat_ofNat]; omega

@[simp] theorem wordOfFields_split (w : Word) : wordOfFields (opField w) (operandField w) = w := by
  apply BitVec.eq_of_toNat_eq
  simp only [opField, operandField, wordOfFields_toNat, BitVec.toNat_ofNat]; omega

/-- The table row an opcode picks has that opcode (R60). -/
@[simp] theorem instrOf_opcode (op : Opcode) (x : Bits12) : (instrOf op x).opcode = op := by
  obtain ⟨n, h⟩ := op
  interval_cases n <;> rfl

@[simp] theorem instrOf_operand (op : Opcode) (x : Bits12) : (instrOf op x).operand = x := by
  obtain ⟨n, h⟩ := op
  interval_cases n <;> rfl

end Sys2Proof
end

