-- ==== Sys2Proof/Laws/Memory.lean ====
section
/-! SUPPORT. Reading after writing, and the canonical form: every memory operation keeps it. -/

namespace Sys2Proof.Machine

theorem Memory.read_cons (m : Memory) (a x : Nat) (b : Byte) (h : m.read a = unlistedByte) :
    (Memory.cons a b m).read x = if x = a then b else m.read x := by
  unfold Memory.cons
  by_cases hb : b = unlistedByte
  · by_cases hx : x = a
    · subst hx; simp [hb, h]
    · simp [hb, hx]
  · simp [hb, Memory.read, eq_comm]

theorem Memory.read_of_wfFrom_lt {m : Memory} {low a : Nat} (h : m.wfFrom low = true) (ha : a < low) :
    m.read a = unlistedByte := by
  induction m generalizing low with
  | nil => rfl
  | cons c rest ih =>
    obtain ⟨k, b⟩ := c
    simp only [Memory.wfFrom, Bool.and_eq_true, decide_eq_true_eq] at h
    have hk : k ≠ a := by omega
    simp only [Memory.read, hk, if_false]
    exact ih h.2 (by omega)

theorem Memory.wfFrom_mono {m : Memory} {low low' : Nat} (h : m.wfFrom low = true) (hl : low' ≤ low) :
    m.wfFrom low' = true := by
  cases m with
  | nil => rfl
  | cons c rest =>
    obtain ⟨k, b⟩ := c
    simp only [Memory.wfFrom, Bool.and_eq_true, decide_eq_true_eq] at h ⊢
    exact ⟨⟨⟨by omega, h.1.1.2⟩, h.1.2⟩, h.2⟩

/-- Writing a cell leaves every other cell alone, in any list. -/
theorem Memory.read_write_other (m : Memory) {a x : Nat} (b : Byte) (hx : x ≠ a) :
    (m.write a b).read x = m.read x := by
  induction m with
  | nil =>
    rw [Memory.write, Memory.read_cons _ _ _ _ rfl, if_neg hx]
  | cons c rest ih =>
    obtain ⟨k, d⟩ := c
    simp only [Memory.write]
    split
    · simp only [Memory.cons]
      split
      · rfl
      · simp [Memory.read, Ne.symm hx]
    · split
      · next hk =>
        subst hk
        simp only [Memory.cons]
        split <;> simp [Memory.read, Ne.symm hx]
      · simp [Memory.read, ih]

/-- A cell reads as what was written to it. -/
theorem Memory.read_write_same_from {m : Memory} {low : Nat} (h : m.wfFrom low = true) (a : Nat) (b : Byte) :
    (m.write a b).read a = b := by
  induction m generalizing low with
  | nil => rw [Memory.write, Memory.read_cons _ _ _ _ rfl, if_pos rfl]
  | cons c rest ih =>
    obtain ⟨k, d⟩ := c
    have h' := h
    simp only [Memory.wfFrom, Bool.and_eq_true, decide_eq_true_eq] at h'
    simp only [Memory.write]
    split
    · next hlt =>
      have hk : k ≠ a := by omega
      have hr : Memory.read rest a = unlistedByte := Memory.read_of_wfFrom_lt h'.2 (by omega)
      rw [Memory.read_cons _ _ _ _ (by simp [Memory.read, hk, hr]), if_pos rfl]
    · split
      · next hk =>
        subst hk
        rw [Memory.read_cons _ _ _ _ (Memory.read_of_wfFrom_lt h'.2 (by omega)), if_pos rfl]
      · next hk =>
        simp [Memory.read, Ne.symm hk, ih h'.2]

/-- A cell reads as what was written to it, every other cell as before. -/
theorem Memory.read_write {m : Memory} (h : m.wf = true) (a x : Nat) (b : Byte) :
    (m.write a b).read x = if x = a then b else m.read x := by
  by_cases hx : x = a
  · subst hx; simp [Memory.read_write_same_from h]
  · simp [hx, Memory.read_write_other m b hx]

theorem Memory.wfFrom_cons {m : Memory} {low a : Nat} (h : m.wfFrom (a + 1) = true) (hl : low ≤ a)
    (ha : a < Config.memSize) (b : Byte) : (Memory.cons a b m).wfFrom low = true := by
  unfold Memory.cons
  split
  · exact Memory.wfFrom_mono h (by omega)
  · next hb => simp [Memory.wfFrom, hl, ha, hb, h]

theorem Memory.wfFrom_write {m : Memory} {low a : Nat} (h : m.wfFrom low = true) (hl : low ≤ a)
    (ha : a < Config.memSize) (b : Byte) : (m.write a b).wfFrom low = true := by
  induction m generalizing low with
  | nil => exact Memory.wfFrom_cons rfl hl ha b
  | cons c rest ih =>
    obtain ⟨k, d⟩ := c
    have h' := h
    simp only [Memory.wfFrom, Bool.and_eq_true, decide_eq_true_eq] at h'
    simp only [Memory.write]
    split
    · next hlt =>
      refine Memory.wfFrom_cons ?_ hl ha b
      simp only [Memory.wfFrom, Bool.and_eq_true, decide_eq_true_eq]
      exact ⟨⟨⟨hlt, h'.1.1.2⟩, h'.1.2⟩, h'.2⟩
    · split
      · next hk => subst hk; exact Memory.wfFrom_cons h'.2 hl ha b
      · next hlt hk =>
        simp only [Memory.wfFrom, Bool.and_eq_true, decide_eq_true_eq]
        exact ⟨h'.1, ih h'.2 (by omega)⟩

/-- A write to an existing cell keeps the canonical form. -/
theorem Memory.wf_write {m : Memory} (h : m.wf = true) {a : Nat} (ha : a < Config.memSize) (b : Byte) :
    (m.write a b).wf = true :=
  Memory.wfFrom_write h (Nat.zero_le a) ha b

/-- A word store inside memory keeps the canonical form. -/
theorem Memory.wf_putWord {m : Memory} (h : m.wf = true) {a : Nat} (ha : a + 2 ≤ Config.memSize) (w : Word) :
    (m.putWord a w).wf = true :=
  Memory.wf_write (Memory.wf_write h (by omega) _) (by omega) _

/-- A block store inside memory keeps the canonical form. -/
theorem Memory.wf_writeBytes {m : Memory} (h : m.wf = true) {a : Nat} {bs : List Byte}
    (ha : a + bs.length ≤ Config.memSize) : (m.writeBytes a bs).wf = true := by
  induction bs generalizing m a with
  | nil => exact h
  | cons b bs ih =>
    simp only [List.length_cons] at ha
    exact ih (Memory.wf_write h (by omega) b) (by omega)

/-- A word store's bytes, and its frame. -/
theorem Memory.read_putWord {m : Memory} (h : m.wf = true) {a : Nat} (ha : a + 2 ≤ Config.memSize) (w : Word)
    (x : Nat) :
    (m.putWord a w).read x =
      if x = a then w.firstByte else if x = a + 1 then w.secondByte else m.read x := by
  rw [Memory.putWord, Memory.read_write (Memory.wf_write h (by omega) _), Memory.read_write h]
  by_cases h1 : x = a
  · subst h1; simp
  · simp [h1]

/-- Canonical memories that read the same everywhere are equal data. -/
theorem Memory.eq_of_read_from {m m' : Memory} {low : Nat} (h : m.wfFrom low = true) (h' : m'.wfFrom low = true)
    (hr : ∀ a, m.read a = m'.read a) : m = m' := by
  induction m generalizing m' low with
  | nil =>
    cases m' with
    | nil => rfl
    | cons c rest =>
      obtain ⟨k, b⟩ := c
      have hk := hr k
      simp only [Memory.wfFrom, Bool.and_eq_true, decide_eq_true_eq, bne_iff_ne] at h'
      simp only [Memory.read, if_true] at hk
      exact absurd hk.symm h'.1.2
  | cons c rest ih =>
    obtain ⟨k, b⟩ := c
    have hw := h
    simp only [Memory.wfFrom, Bool.and_eq_true, decide_eq_true_eq, bne_iff_ne] at hw
    cases m' with
    | nil =>
      have hk := hr k
      simp only [Memory.read, if_true] at hk
      exact absurd hk hw.1.2
    | cons c' rest' =>
      obtain ⟨k', b'⟩ := c'
      have hw' := h'
      simp only [Memory.wfFrom, Bool.and_eq_true, decide_eq_true_eq, bne_iff_ne] at hw'
      have hk : k = k' := by
        rcases Nat.lt_trichotomy k k' with hlt | heq | hgt
        · have hr' := hr k
          have hz : Memory.read rest' k = unlistedByte := Memory.read_of_wfFrom_lt hw'.2 (by omega)
          simp only [Memory.read, if_true, show ¬ k' = k by omega, if_false, hz] at hr'
          exact absurd hr' hw.1.2
        · exact heq
        · have hr' := hr k'
          have hz : Memory.read rest k' = unlistedByte := Memory.read_of_wfFrom_lt hw.2 (by omega)
          simp only [Memory.read, if_true, show ¬ k = k' by omega, if_false, hz] at hr'
          exact absurd hr'.symm hw'.1.2
      subst hk
      have hb : b = b' := by simpa [Memory.read] using hr k
      subst hb
      have hrest : rest = rest' := by
        refine ih hw.2 hw'.2 fun a => ?_
        by_cases ha : a < k + 1
        · rw [Memory.read_of_wfFrom_lt hw.2 ha, Memory.read_of_wfFrom_lt hw'.2 ha]
        · have := hr a
          simpa [Memory.read, show ¬ k = a by omega] using this
      rw [hrest]

/-- The canonical form is one form: two of them that read the same are the same list. -/
theorem Memory.eq_of_read {m m' : Memory} (h : m.wf = true) (h' : m'.wf = true)
    (hr : ∀ a, m.read a = m'.read a) : m = m' :=
  Memory.eq_of_read_from h h' hr

/-- The reset memory has the canonical form. -/
theorem reset_mem_wf : State.reset.mem.wf = true := rfl

/-- Storing the instruction a step is to fetch keeps the canonical form. -/
theorem wf_withFetchWord {s : State} (h : s.mem.wf = true) (hpc : s.pc.toNat + 2 ≤ Config.memSize)
    (nbits w : Nat) : (s.withFetchWord nbits w).mem.wf = true :=
  Memory.wf_putWord h hpc _

/-- The loader keeps the canonical form (R135, R136). -/
theorem load_wf {img : Image} {m m' : Memory} (h : m.wf = true) (hl : load img m = .ok m') : m'.wf = true := by
  unfold load at hl
  simp only at hl
  split at hl
  · cases hl
  · next hfit =>
    split at hl
    · cases hl
    · next hcap =>
      cases hl
      have hlen : img.body.length = 2 * img.length.toNat := by
        simpa [Image.bodyFits] using hfit
      exact Memory.wf_writeBytes h (by omega)

end Sys2Proof.Machine
end

