-- ==== Sys2Proof/Laws/State.lean ====
section
/-! SUPPORT. One lemma per field per update of State, each true by rfl, so that no proof unfolds a
record update. -/

namespace Sys2Proof.Machine

@[simp] theorem State.setAc_ac (s : State) (x : Int) : (s.setAc x).ac = BitVec.ofInt 12 x := rfl
@[simp] theorem State.setAc_pc (s : State) (x : Int) : (s.setAc x).pc = s.pc := rfl
@[simp] theorem State.setAc_mem (s : State) (x : Int) : (s.setAc x).mem = s.mem := rfl
@[simp] theorem State.setAc_run (s : State) (x : Int) : (s.setAc x).run = s.run := rfl
@[simp] theorem State.setAc_out (s : State) (x : Int) : (s.setAc x).out = s.out := rfl
@[simp] theorem State.setAc_gdMode (s : State) (x : Int) : (s.setAc x).gdMode = s.gdMode := rfl
@[simp] theorem State.setAc_input (s : State) (x : Int) : (s.setAc x).input = s.input := rfl
@[simp] theorem State.setAc_resumeLine (s : State) (x : Int) :
    (s.setAc x).resumeLine = s.resumeLine := rfl

@[simp] theorem State.putPc_ac (s : State) (v : Nat) : (s.putPc v).ac = s.ac := rfl
@[simp] theorem State.putPc_pc (s : State) (v : Nat) : (s.putPc v).pc = BitVec.ofNat 13 v := rfl
@[simp] theorem State.putPc_mem (s : State) (v : Nat) : (s.putPc v).mem = s.mem := rfl
@[simp] theorem State.putPc_run (s : State) (v : Nat) : (s.putPc v).run = s.run := rfl
@[simp] theorem State.putPc_out (s : State) (v : Nat) : (s.putPc v).out = s.out := rfl
@[simp] theorem State.putPc_gdMode (s : State) (v : Nat) : (s.putPc v).gdMode = s.gdMode := rfl
@[simp] theorem State.putPc_input (s : State) (v : Nat) : (s.putPc v).input = s.input := rfl
@[simp] theorem State.putPc_resumeLine (s : State) (v : Nat) :
    (s.putPc v).resumeLine = s.resumeLine := rfl

@[simp] theorem State.setRun_ac (s : State) (r : RunState) : (s.setRun r).ac = s.ac := rfl
@[simp] theorem State.setRun_pc (s : State) (r : RunState) : (s.setRun r).pc = s.pc := rfl
@[simp] theorem State.setRun_mem (s : State) (r : RunState) : (s.setRun r).mem = s.mem := rfl
@[simp] theorem State.setRun_run (s : State) (r : RunState) : (s.setRun r).run = r := rfl
@[simp] theorem State.setRun_out (s : State) (r : RunState) : (s.setRun r).out = s.out := rfl
@[simp] theorem State.setRun_gdMode (s : State) (r : RunState) :
    (s.setRun r).gdMode = s.gdMode := rfl
@[simp] theorem State.setRun_input (s : State) (r : RunState) : (s.setRun r).input = s.input := rfl
@[simp] theorem State.setRun_resumeLine (s : State) (r : RunState) :
    (s.setRun r).resumeLine = s.resumeLine := rfl

@[simp] theorem State.setMem_ac (s : State) (m : Memory) : (s.setMem m).ac = s.ac := rfl
@[simp] theorem State.setMem_pc (s : State) (m : Memory) : (s.setMem m).pc = s.pc := rfl
@[simp] theorem State.setMem_mem (s : State) (m : Memory) : (s.setMem m).mem = m := rfl
@[simp] theorem State.setMem_run (s : State) (m : Memory) : (s.setMem m).run = s.run := rfl
@[simp] theorem State.setMem_out (s : State) (m : Memory) : (s.setMem m).out = s.out := rfl
@[simp] theorem State.setMem_gdMode (s : State) (m : Memory) : (s.setMem m).gdMode = s.gdMode := rfl
@[simp] theorem State.setMem_input (s : State) (m : Memory) : (s.setMem m).input = s.input := rfl
@[simp] theorem State.setMem_resumeLine (s : State) (m : Memory) :
    (s.setMem m).resumeLine = s.resumeLine := rfl

@[simp] theorem State.emit_ac (s : State) (v : Int) : (s.emit v).ac = s.ac := rfl
@[simp] theorem State.emit_pc (s : State) (v : Int) : (s.emit v).pc = s.pc := rfl
@[simp] theorem State.emit_mem (s : State) (v : Int) : (s.emit v).mem = s.mem := rfl
@[simp] theorem State.emit_run (s : State) (v : Int) : (s.emit v).run = s.run := rfl
@[simp] theorem State.emit_out (s : State) (v : Int) : (s.emit v).out = s.out ++ [v] := rfl
@[simp] theorem State.emit_gdMode (s : State) (v : Int) : (s.emit v).gdMode = s.gdMode := rfl
@[simp] theorem State.emit_input (s : State) (v : Int) : (s.emit v).input = s.input := rfl
@[simp] theorem State.emit_resumeLine (s : State) (v : Int) :
    (s.emit v).resumeLine = s.resumeLine := rfl

@[simp] theorem State.raise_ac (s : State) (e : CpuError) : (s.raise e).ac = s.ac := rfl
@[simp] theorem State.raise_pc (s : State) (e : CpuError) : (s.raise e).pc = s.pc := rfl
@[simp] theorem State.raise_mem (s : State) (e : CpuError) : (s.raise e).mem = s.mem := rfl
@[simp] theorem State.raise_run (s : State) (e : CpuError) :
    (s.raise e).run = .faulted e s.pc s.ac := rfl
@[simp] theorem State.raise_out (s : State) (e : CpuError) : (s.raise e).out = s.out := rfl
@[simp] theorem State.raise_gdMode (s : State) (e : CpuError) : (s.raise e).gdMode = s.gdMode := rfl
@[simp] theorem State.raise_input (s : State) (e : CpuError) : (s.raise e).input = s.input := rfl
@[simp] theorem State.raise_resumeLine (s : State) (e : CpuError) :
    (s.raise e).resumeLine = s.resumeLine := rfl

@[simp] theorem State.unfetch_ac (s : State) : (s.unfetch).ac = s.ac := rfl
@[simp] theorem State.unfetch_pc (s : State) : (s.unfetch).pc = s.pc - 2 := rfl
@[simp] theorem State.unfetch_mem (s : State) : (s.unfetch).mem = s.mem := rfl
@[simp] theorem State.unfetch_run (s : State) : (s.unfetch).run = s.run := rfl
@[simp] theorem State.unfetch_out (s : State) : (s.unfetch).out = s.out := rfl
@[simp] theorem State.unfetch_gdMode (s : State) : (s.unfetch).gdMode = s.gdMode := rfl
@[simp] theorem State.unfetch_input (s : State) : (s.unfetch).input = s.input := rfl
@[simp] theorem State.unfetch_resumeLine (s : State) : (s.unfetch).resumeLine = s.resumeLine := rfl

@[simp] theorem State.tick_ac (s : State) : (s.tick).ac = s.ac := rfl
@[simp] theorem State.tick_pc (s : State) : (s.tick).pc = s.pc := rfl
@[simp] theorem State.tick_mem (s : State) : (s.tick).mem = s.mem := rfl
@[simp] theorem State.tick_run (s : State) : (s.tick).run = s.run := rfl
@[simp] theorem State.tick_out (s : State) : (s.tick).out = s.out := rfl
@[simp] theorem State.tick_gdMode (s : State) : (s.tick).gdMode = s.gdMode := rfl
@[simp] theorem State.tick_input (s : State) : (s.tick).input = s.input := rfl
@[simp] theorem State.tick_resumeLine (s : State) : (s.tick).resumeLine = s.resumeLine.tail := rfl

@[simp] theorem State.setInput_ac (s : State) (rest : List Text) :
    (s.setInput rest).ac = s.ac := rfl
@[simp] theorem State.setInput_pc (s : State) (rest : List Text) :
    (s.setInput rest).pc = s.pc := rfl
@[simp] theorem State.setInput_mem (s : State) (rest : List Text) :
    (s.setInput rest).mem = s.mem := rfl
@[simp] theorem State.setInput_run (s : State) (rest : List Text) :
    (s.setInput rest).run = s.run := rfl
@[simp] theorem State.setInput_out (s : State) (rest : List Text) :
    (s.setInput rest).out = s.out := rfl
@[simp] theorem State.setInput_gdMode (s : State) (rest : List Text) :
    (s.setInput rest).gdMode = s.gdMode := rfl
@[simp] theorem State.setInput_input (s : State) (rest : List Text) :
    (s.setInput rest).input = rest := rfl
@[simp] theorem State.setInput_resumeLine (s : State) (rest : List Text) :
    (s.setInput rest).resumeLine = s.resumeLine := rfl

@[simp] theorem State.withFetchWord_ac (s : State) (nbits w : Nat) :
    (s.withFetchWord nbits w).ac = s.ac := rfl
@[simp] theorem State.withFetchWord_pc (s : State) (nbits w : Nat) :
    (s.withFetchWord nbits w).pc = s.pc := rfl
@[simp] theorem State.withFetchWord_mem (s : State) (nbits w : Nat) :
    (s.withFetchWord nbits w).mem = s.mem.putWord s.pc.toNat (BitVec.ofNat 16 (w % 2 ^ nbits)) := rfl
@[simp] theorem State.withFetchWord_run (s : State) (nbits w : Nat) :
    (s.withFetchWord nbits w).run = .running := rfl
@[simp] theorem State.withFetchWord_out (s : State) (nbits w : Nat) :
    (s.withFetchWord nbits w).out = s.out := rfl
@[simp] theorem State.withFetchWord_gdMode (s : State) (nbits w : Nat) :
    (s.withFetchWord nbits w).gdMode = s.gdMode := rfl
@[simp] theorem State.withFetchWord_input (s : State) (nbits w : Nat) :
    (s.withFetchWord nbits w).input = s.input := rfl
@[simp] theorem State.withFetchWord_resumeLine (s : State) (nbits w : Nat) :
    (s.withFetchWord nbits w).resumeLine = s.resumeLine := rfl

end Sys2Proof.Machine
end

