-- ==== Sys2Proof/Laws/Ops.lean ====
section
/-! SUPPORT. For each shared operation, one lemma that says all it can do. -/

namespace Sys2Proof.Machine

/-! ### Numbers -/

theorem sext12_mem (x : Int) : -2048 ≤ sext12 x ∧ sext12 x ≤ 2047 := by
  unfold sext12; omega

/-- A value of AC is its own sign extension. -/
theorem sext12_of_mem {x : Int} (h : -2048 ≤ x ∧ x ≤ 2047) : sext12 x = x := by
  unfold sext12; omega

/-- Storing the low 12 bits of a number stores the value `sext_12` of it (R8, R14). -/
theorem toInt_ofInt12 (x : Int) : (BitVec.ofInt 12 x).toInt = sext12 x := by
  rw [BitVec.toInt_ofInt, sext12, Int.bmod_def]
  split <;> omega

theorem toInt_mem (a : Bits12) : -2048 ≤ a.toInt ∧ a.toInt ≤ 2047 := by
  have h1 := BitVec.le_toInt a
  have h2 := BitVec.toInt_lt (x := a)
  norm_num at h1 h2
  omega

theorem State.acVal_mem (s : State) : -2048 ≤ s.acVal ∧ s.acVal ≤ 2047 := toInt_mem s.ac

@[simp] theorem State.acVal_setAc (s : State) (x : Int) : (s.setAc x).acVal = sext12 x :=
  toInt_ofInt12 x

theorem immediateOf_eq (v : Bits12) : BitVec.ofInt 12 (immediateOf v) = v := by
  apply BitVec.eq_of_toInt_eq
  rw [toInt_ofInt12, immediateOf, BitVec.toInt_eq_toNat_bmod, Int.bmod_def]
  have := v.isLt
  unfold sext12
  split <;> omega

theorem u16_toNat (x : Int) : ((u16 x).toNat : Int) = x % 65536 := by
  simp only [u16, BitVec.toNat_ofInt]
  omega

/-- The spec's truncating division is the integer division that rounds toward zero (R10). -/
theorem tdiv_eq (a b : Int) : tdiv a b = Int.tdiv a b := by
  unfold tdiv sameSign
  rcases a with a | a <;> rcases b with b | b
  · simp [Int.tdiv, show ¬ (a : Int) < 0 by omega, show ¬ (b : Int) < 0 by omega]
  · rcases Nat.eq_zero_or_pos a with rfl | ha
    · simp [Int.tdiv]
    · simp [Int.tdiv, Int.negSucc_lt_zero, Int.natAbs_negSucc, show ¬ a = 0 by omega]
  · simp [Int.tdiv, Int.negSucc_lt_zero, Int.natAbs_negSucc]
  · simp [Int.tdiv, Int.negSucc_lt_zero, Int.natAbs_negSucc]

/-! ### Accesses -/

theorem checkRange_eq (a n : Nat) :
    checkRange a n = if a + n ≤ 4096 then .ok () else .error (.outOfRange (a + n - 1)) := rfl

theorem memReadWord_eq (m : Memory) (a : Nat) :
    memReadWord m a = if a + 2 ≤ 4096 then .ok (m.wordAt a) else .error (.outOfRange (a + 1)) := by
  simp only [memReadWord, checkRange_eq]
  split <;> rfl

theorem memReadByte_eq (m : Memory) (a : Nat) :
    memReadByte m a = if a + 1 ≤ 4096 then .ok (m.read a) else .error (.outOfRange a) := by
  simp only [memReadByte, checkRange_eq]
  split <;> rfl

theorem memWriteWord_eq (m : Memory) (a : Nat) (w : Word) :
    memWriteWord m a w = if a + 2 ≤ 4096 then .ok (m.putWord a w) else .error (.outOfRange (a + 1)) := by
  simp only [memWriteWord, checkRange_eq]
  split <;> rfl

theorem memWriteByte_eq (m : Memory) (a : Nat) (b : Byte) :
    memWriteByte m a b = if a + 1 ≤ 4096 then .ok (m.write a b) else .error (.outOfRange a) := by
  simp only [memWriteByte, checkRange_eq]
  split <;> rfl

theorem wordAt_toNat (m : Memory) (a : Nat) :
    (m.wordAt a).toNat = (m.read a).toNat * 256 + (m.read (a + 1)).toNat :=
  wordOfBytes_toNat _ _

/-- The data operand (R76). -/
theorem opnd_eq (s : State) (a : Nat) :
    opnd s a =
      if a + 2 ≤ 4096 then .ok (sext12 (s.mem.wordAt a).toNat) else .error (.outOfRange (a + 1)) := by
  simp only [opnd, memReadWord_eq]
  split <;> rfl

/-- Bits 15..12 of the word at an address are no part of the data operand (R76). -/
theorem sext12_wordAt (m : Memory) (a : Nat) :
    sext12 (m.wordAt a).toNat = sext12 ((m.read a).toNat % 16 * 256 + (m.read (a + 1)).toNat) := by
  rw [wordAt_toNat]; unfold sext12; push_cast; omega

/-! ### PC, errors, fetch -/

theorem checkParity_eq (v : Nat) :
    checkParity v = if v % 2 = 1 then .error (.invalidAddress v) else .ok () := rfl

/-- The checked PC write (R67). -/
theorem setPc_eq (v : Nat) (s : State) :
    setPc v s = if v % 2 = 1 then .error (.invalidAddress v) else .ok (s.putPc v) := by
  simp only [setPc, checkParity_eq]
  split <;> rfl

@[simp] theorem State.finish_ok (s t : State) : s.finish (.ok t) = .next t := rfl

@[simp] theorem State.finish_error (s : State) (e : CpuError) : s.finish (.error e) = .next (s.raise e) :=
  rfl

/-- An instruction's outcome is always a next state. -/
theorem State.finish_eq (s : State) (r : Except CpuError State) :
    (∃ t, r = .ok t ∧ s.finish r = .next t) ∨ (∃ e, r = .error e ∧ s.finish r = .next (s.raise e)) := by
  cases r with
  | ok t => exact .inl ⟨t, rfl, rfl⟩
  | error e => exact .inr ⟨e, rfl, rfl⟩

/-- All a fetch can do (R66). -/
theorem fetch_cases (s : State) :
    (4096 < s.pc.toNat + 2 ∧ fetch s = .error (.outOfRange s.pc.toNat)) ∨
    (s.pc.toNat + 2 ≤ 4096 ∧ fetch s = .ok (s.mem.wordAt s.pc.toNat, s.putPc (s.pc.toNat + 2))) := by
  unfold fetch Config.memSize
  split
  · next h => exact .inl ⟨h, rfl⟩
  · next h => exact .inr ⟨by omega, rfl⟩

theorem putPc_toNat (s : State) {v : Nat} (h : v ≤ 4096) : (s.putPc v).pc.toNat = v := by
  simp only [State.putPc_pc, BitVec.toNat_ofNat]; omega

/-- A fetch taken back gives the state before it (R27). -/
theorem unfetch_putPc (s : State) : (s.putPc (s.pc.toNat + 2)).unfetch = s := by
  have h : BitVec.ofNat 13 (s.pc.toNat + 2) - 2 = s.pc := by
    rw [BitVec.ofNat_add]
    simp
  cases s
  simpa [State.unfetch, State.putPc] using h

/-- What ADD, SUB, MUL and LD do with their operand (R76, R77). -/
theorem aluOp_eq (f : Int → Int → Int) (a : Nat) (s : State) :
    aluOp f a s =
      if a + 2 ≤ 4096 then .ok (s.setAc (f s.acVal (sext12 (s.mem.wordAt a).toNat)))
      else .error (.outOfRange (a + 1)) := by
  simp only [aluOp, opnd_eq]
  split <;> rfl

/-- GD's value goes to AC in the AC mode (R92). -/
theorem takeInput_ac {s : State} (h : s.gdMode = .ac) (v : Nat) : takeInput v s = .ok (s.setAc (sext12 v)) := by
  simp only [takeInput, h]

/-- GD's value goes to PC in the PC mode, checked (R92). -/
theorem takeInput_pc {s : State} (h : s.gdMode = .pc) (v : Nat) : takeInput v s = setPc v s := by
  simp only [takeInput, h]

/-! ### Steps that are no instruction -/

/-- The resume (R90), in the one run state that has it. -/
theorem resume_haltedWaiting {s : State} {t : Bits12} (h : s.run = .haltedWaiting t) :
    resume s =
      if t.toNat % 2 = 1 then s.raise (.invalidAddress t.toNat) else (s.putPc t.toNat).setRun .running := by
  simp only [resume, h, setPc_eq]
  by_cases ho : t.toNat % 2 = 1
  · simp only [ho, if_true]
  · simp only [ho, if_false]

/-- In any other run state the resume signal changes nothing (R34). -/
theorem resume_eq_self {s : State} (h : ∀ t, s.run ≠ .haltedWaiting t) : resume s = s := by
  unfold resume
  split
  · next t ht => exact absurd ht (h t)
  · rfl

/-- A step of the wait (R71, R132), when the signal comes and when it does not. -/
theorem waitForResume_eq (s : State) :
    waitForResume s = if s.resumeLine.headD false then resume s.tick else s.tick := rfl

/-- All a step can do, by run state (R71). -/
theorem step_running {s : State} (h : s.run = .running) :
    step s =
      if s.pc.toNat + 2 ≤ 4096 then
        exec (decodeWord (s.mem.wordAt s.pc.toNat)) (s.tick.putPc (s.pc.toNat + 2))
      else .next (s.tick.raise (.outOfRange s.pc.toNat)) := by
  simp only [step, h]
  rcases fetch_cases s.tick with ⟨hlt, hf⟩ | ⟨hle, hf⟩
  · simp only [State.tick_pc] at hlt hf
    simp [hf, show ¬ s.pc.toNat + 2 ≤ 4096 by omega]
  · simp only [State.tick_pc, State.tick_mem] at hle hf
    simp [hf, hle]

theorem step_haltedWaiting {s : State} {t : Bits12} (h : s.run = .haltedWaiting t) :
    step s = .next (waitForResume s) := by
  simp only [step, h]

theorem step_terminated {s : State} (h : s.run = .terminated) : step s = .fault .runTerminated := by
  simp only [step, h]

theorem step_faulted {s : State} {e : CpuError} {pc : PcBits} {ac : Bits12} (h : s.run = .faulted e pc ac) :
    step s = .fault .runFaulted := by
  simp only [step, h]

/-! ### The input channel -/

theorem parseInput_le {t : Text} {v : Nat} (h : parseInput t = some v) : v ≤ 4095 := by
  unfold parseInput Config.maxOperand at h
  split at h
  · split at h
    · cases h; assumption
    · cases h
  · cases h

/-- All that waiting for input can do: pass over malformed strings to the first valid one, or wait
(R32, R91). -/
theorem awaitInput_cases (l : List Text) :
    (awaitInput l = none ∧ ∀ t ∈ l, parseInput t = none) ∨
    (∃ bad good rest v, l = bad ++ good :: rest ∧ (∀ t ∈ bad, parseInput t = none) ∧
      parseInput good = some v ∧ awaitInput l = some (v, rest)) := by
  induction l with
  | nil => exact .inl ⟨rfl, by simp⟩
  | cons t l ih =>
    cases ht : parseInput t with
    | some v => exact .inr ⟨[], t, l, v, rfl, by simp, ht, by simp [awaitInput, ht]⟩
    | none =>
      rcases ih with ⟨h1, h2⟩ | ⟨bad, good, rest, v, h1, h2, h3, h4⟩
      · exact .inl ⟨by simp [awaitInput, ht, h1], by simpa [ht] using h2⟩
      · refine .inr ⟨t :: bad, good, rest, v, by simp [h1], by simpa [ht] using h2, h3, ?_⟩
        simp [awaitInput, ht, h4]

end Sys2Proof.Machine
end

