-- ==== Sys2Proof/Laws/PerInstr.lean ====
section
/-! SUPPORT. Statements about every instruction, one lemma per constructor. -/

namespace Sys2Proof.Laws.EncodingFields

/-- The instruction's word carries its opcode in bits 15..12 and its operand in bits 11..0 (R56). -/
def Statement (i : Instr) : Prop :=
  (encode i).toNat = i.opcode.toNat * 4096 + i.operand.toNat ∧
    opField (encode i) = i.opcode ∧ operandField (encode i) = i.operand

theorem of_fields (i : Instr) : Statement i :=
  ⟨wordOfFields_toNat _ _, opField_wordOfFields _ _, operandField_wordOfFields _ _⟩

theorem jmp (a : Bits12) : Statement (.jmp a) := of_fields _
theorem jz (a : Bits12) : Statement (.jz a) := of_fields _
theorem jn (a : Bits12) : Statement (.jn a) := of_fields _
theorem lv (v : Bits12) : Statement (.lv v) := of_fields _
theorem add (a : Bits12) : Statement (.add a) := of_fields _
theorem sub (a : Bits12) : Statement (.sub a) := of_fields _
theorem mul (a : Bits12) : Statement (.mul a) := of_fields _
theorem div (a : Bits12) : Statement (.div a) := of_fields _
theorem ld (a : Bits12) : Statement (.ld a) := of_fields _
theorem mm (a : Bits12) : Statement (.mm a) := of_fields _
theorem sc (a : Bits12) : Statement (.sc a) := of_fields _
theorem rs (a : Bits12) : Statement (.rs a) := of_fields _
theorem hm (a : Bits12) : Statement (.hm a) := of_fields _
theorem gd (x : Bits12) : Statement (.gd x) := of_fields _
theorem pd (x : Bits12) : Statement (.pd x) := of_fields _
theorem os (n : Bits12) : Statement (.os n) := of_fields _

end Sys2Proof.Laws.EncodingFields
end

