-- ==== Sys2Proof/Tests/Slice0.lean ====
section
/-! SUPPORT. The model's own tests. Expected values are those of spec/95_test_vectors.md (the section stands
before each group), or are worked out by hand from the rule named. -/

open Sys2Proof Sys2Proof.Machine Sys2Proof.Claims

namespace Sys2Proof.Tests

/-- A running CPU with the given PC, AC and listed cells. -/
def cpu (pc : Nat) (ac : Int) (mem : Memory) : State :=
  { State.reset with pc := BitVec.ofNat 13 pc, ac := BitVec.ofInt 12 ac, mem := mem }

/-- The next state of an outcome, if it is one. -/
def nextOf : Host.Outcome State Fault Refusal → Option State
  | .next s => some s
  | .fault _ => none
  | .refused _ => none

theorem next_of_nextOf {o : Host.Outcome State Fault Refusal} {t : State} (h : nextOf o = some t) : o = .next t := by
  cases o with
  | next s => cases h; rfl
  | fault r => cases h
  | refused r => cases h

/-- The state after one step at which the word `w` stands at PC. -/
def after (s : State) (w : Nat) : Option State := nextOf (step (s.withFetchWord 16 w))

/-- AC, PC and the run state after one step, to be compared with a table's row. -/
def seen (s : State) (w : Nat) : Option (Int × Nat × RunState) :=
  (after s w).map fun t => (t.acVal, t.pc.toNat, t.run)

/-- The cells a step leaves at `a` and `a + 1`. -/
def cells (s : State) (w a : Nat) : Option (Byte × Byte) :=
  (after s w).map fun t => (t.mem.read a, t.mem.read (a + 1))

/-- FAULTED at PC `pc` with AC `ac`. -/
def faultAt (e : CpuError) (pc : Nat) (ac : Int) : RunState :=
  .faulted e (BitVec.ofNat 13 pc) (BitVec.ofInt 12 ac)

/-- An input string. -/
def str (s : String) : Text := s.toList

/-- A CPU with strings on its input channel. -/
def withStrings (s : State) (l : List String) : State := { s with input := l.map str }

/-! ### Well-formedness (30_encoding.md R56): ill-formed operands are refused -/

theorem test_wf_refuses_4096 : operandFits 4096 = false := by decide

theorem test_wf_refuses_large_operand : operandFits 65535 = false := by decide

theorem test_wf_accepts_field : operandFits 0 = true ∧ operandFits 4095 = true := by decide

/-! ### Decoding (95_test_vectors.md section 2.1): one word per constructor -/

theorem test_decode_jmp : decode [0x00, 0x00] = .ok (.jmp 0x000, []) := by rfl
theorem test_decode_jz : decode [0x1F, 0xFE] = .ok (.jz 0xFFE, []) := by rfl
theorem test_decode_jn : decode [0x2A, 0x5C] = .ok (.jn 0xA5C, []) := by rfl
theorem test_decode_lv : decode [0x3F, 0xF9] = .ok (.lv 0xFF9, []) := by rfl
theorem test_decode_add : decode [0x40, 0x12] = .ok (.add 0x012, []) := by rfl
theorem test_decode_sub : decode [0x58, 0x00] = .ok (.sub 0x800, []) := by rfl
theorem test_decode_mul : decode [0x61, 0x16] = .ok (.mul 0x116, []) := by rfl
theorem test_decode_div : decode [0x70, 0x16] = .ok (.div 0x016, []) := by rfl
theorem test_decode_ld : decode [0x80, 0x05] = .ok (.ld 0x005, []) := by rfl
theorem test_decode_mm : decode [0x9F, 0xFF] = .ok (.mm 0xFFF, []) := by rfl
theorem test_decode_sc : decode [0xA1, 0x0A] = .ok (.sc 0x10A, []) := by rfl
theorem test_decode_rs : decode [0xB1, 0x0A] = .ok (.rs 0x10A, []) := by rfl
theorem test_decode_hm : decode [0xC0, 0x30] = .ok (.hm 0x030, []) := by rfl
theorem test_decode_gd : decode [0xD1, 0x23] = .ok (.gd 0x123, []) := by rfl
theorem test_decode_pd : decode [0xE0, 0x00] = .ok (.pd 0x000, []) := by rfl
theorem test_decode_os : decode [0xFF, 0xFF] = .ok (.os 0xFFF, []) := by rfl

theorem test_decode_table_word :
    decodeTableWord 16 0xA10A = some (.sc 0x10A) ∧ decodeTableWord 16 0x2A5C = some (.jn 0xA5C) := by decide

theorem test_decode_needs_two_bytes :
    decode [] = .error .truncated ∧ decode [0x12] = .error .truncated := ⟨rfl, rfl⟩

theorem test_encode_bytes : encodeBytes (.lv 0xFF9) = [0x3F, 0xF9] := by decide

/-! ### Integer functions (95_test_vectors.md sections 1.1 and 2.1; R10) -/

theorem test_sext12 :
    sext12 4095 = -1 ∧ sext12 (-2049) = 2047 ∧ sext12 65535 = -1 ∧ sext12 0x1234 = 564 ∧ sext12 0xF005 = 5 := by
  decide

theorem test_tdiv : tdiv (-7) 2 = -3 ∧ tdiv 7 (-2) = -3 ∧ tdiv (-7) (-2) = 3 ∧ tdiv (-2048) (-1) = 2048 := by decide

/-! ### One step of each instruction (95_test_vectors.md sections 1.2, 1.3 and 2.2 to 2.8) -/

theorem test_jmp : seen (cpu 0x40 9 []) 0x0010 = some (9, 0x10, .running) := by decide
theorem test_jmp_odd :
    seen (cpu 0x40 9 []) 0x0011 = some (9, 0x42, faultAt (.invalidAddress 0x11) 0x42 9) := by decide

theorem test_jz :
    seen (cpu 0x40 0 []) 0x1FFE = some (0, 0xFFE, .running) ∧
    seen (cpu 0x40 (-2048) []) 0x1FFE = some (-2048, 0x42, .running) := by decide
theorem test_jz_odd :
    seen (cpu 0x40 0 []) 0x1021 = some (0, 0x42, faultAt (.invalidAddress 0x21) 0x42 0) ∧
    seen (cpu 0x40 5 []) 0x1021 = some (5, 0x42, .running) := by decide

theorem test_jn :
    seen (cpu 0x40 (-1) []) 0x2100 = some (-1, 0x100, .running) ∧
    seen (cpu 0x40 0 []) 0x2100 = some (0, 0x42, .running) := by decide
theorem test_jn_odd :
    seen (cpu 0x40 (-3) []) 0x2101 = some (-3, 0x42, faultAt (.invalidAddress 0x101) 0x42 (-3)) ∧
    seen (cpu 0x40 3 []) 0x2101 = some (3, 0x42, .running) := by decide

theorem test_lv :
    seen (cpu 0 5 []) 0x3800 = some (-2048, 2, .running) ∧ seen (cpu 0 5 []) 0x37FF = some (2047, 2, .running) := by
  decide

theorem test_add_wraps : seen (cpu 0 2047 [(0x21, 1)]) 0x4020 = some (-2048, 2, .running) := by decide
theorem test_add_top_nibble_and_range :
    seen (cpu 0 0 [(0x20, 0xF0), (0x21, 5)]) 0x4020 = some (5, 2, .running) ∧
    seen (cpu 0 7 []) 0x4FFF = some (7, 2, faultAt (.outOfRange 4096) 2 7) := by decide

theorem test_sub : seen (cpu 0 3 [(0x21, 4)]) 0x5020 = some (-1, 2, .running) := by decide
theorem test_sub_wraps : seen (cpu 0 0 [(0x20, 8)]) 0x5020 = some (-2048, 2, .running) := by decide

theorem test_mul : seen (cpu 0 (-3) [(0x116, 0xFF), (0x117, 0xFD)]) 0x6116 = some (9, 2, .running) := by decide
theorem test_mul_wraps : seen (cpu 0 (-100) [(0x21, 0x32)]) 0x6020 = some (-904, 2, .running) := by decide

theorem test_div_truncates_and_wraps :
    seen (cpu 0 (-7) [(0x17, 2)]) 0x7016 = some (-3, 2, .running) ∧
    seen (cpu 0 (-2048) [(0x16, 0x0F), (0x17, 0xFF)]) 0x7016 = some (-2048, 2, .running) := by decide
theorem test_div_by_zero :
    seen (cpu 0 5 [(0x16, 0xF0)]) 0x7016 = some (5, 2, faultAt (.divideByZero 0x16) 2 5) ∧
    seen (cpu 0 5 []) 0x7FFF = some (5, 2, faultAt (.outOfRange 4096) 2 5) := by decide

theorem test_ld : seen (cpu 0 5 [(5, 0x0F), (6, 0xFD)]) 0x8005 = some (-3, 2, .running) := by decide
theorem test_ld_last_word :
    seen (cpu 0 5 [(4094, 7), (4095, 0xFF)]) 0x8FFE = some (2047, 2, .running) ∧
    seen (cpu 0 5 [(4094, 7), (4095, 0xFF)]) 0x8FFF = some (5, 2, faultAt (.outOfRange 4096) 2 5) := by decide

theorem test_mm : cells (cpu 0 (-3) []) 0x901C 0x1C = some (0xFF, 0xFD) := by decide
theorem test_mm_range :
    cells (cpu 0 1 []) 0x9FFE 4094 = some (0, 1) ∧ cells (cpu 0 1 [(4095, 9)]) 0x9FFF 4095 = some (9, 0) ∧
    seen (cpu 0 1 []) 0x9FFF = some (1, 2, faultAt (.outOfRange 4096) 2 1) := by decide

theorem test_sc :
    cells (cpu 0x102 7 []) 0xA10A 0x10A = some (1, 4) ∧ seen (cpu 0x102 7 []) 0xA10A = some (7, 0x10C, .running) := by
  decide
theorem test_sc_edges :
    cells (cpu 0xFFE 7 []) 0xA020 0x20 = some (0x10, 0) ∧ seen (cpu 0x10 7 []) 0xAFFE = some (7, 4096, .running) ∧
    seen (cpu 0x102 7 []) 0xA10B = some (7, 0x104, faultAt (.invalidAddress 0x10D) 0x104 7) ∧
    seen (cpu 0x102 7 []) 0xAFFF = some (7, 0x104, faultAt (.outOfRange 4096) 0x104 7) := by decide

theorem test_rs : seen (cpu 0x200 7 [(0x10A, 1), (0x10B, 4)]) 0xB10A = some (7, 0x104, .running) := by decide
theorem test_rs_errors :
    seen (cpu 0x200 7 [(0x10A, 0x1F), (0x10B, 0xFF)]) 0xB10A = some (7, 0x202, faultAt (.overflow 0x10A) 0x202 7) ∧
    seen (cpu 0x200 7 [(0x10A, 0x0F), (0x10B, 0xFF)]) 0xB10A =
      some (7, 0x202, faultAt (.invalidAddress 0xFFF) 0x202 7) ∧
    seen (cpu 0x200 7 []) 0xBFFF = some (7, 0x202, faultAt (.outOfRange 4096) 0x202 7) := by decide

theorem test_hm : seen (cpu 0x20 7 []) 0xC030 = some (7, 0x22, .haltedWaiting 0x030) := by decide
theorem test_hm_odd_target_waits : seen (cpu 0x20 7 []) 0xC031 = some (7, 0x22, .haltedWaiting 0x031) := by decide

theorem test_gd :
    seen (withStrings (cpu 0 5 []) ["x", "-1", "4096", "/", "12a", "", " /01A "]) 0xD000 = some (26, 2, .running) ∧
    seen (withStrings (cpu 0 5 []) ["4095"]) 0xD000 = some (-1, 2, .running) := by decide
theorem test_gd_waits : seen (withStrings (cpu 0x40 5 []) ["x"]) 0xD000 = some (5, 0x40, .running) := by decide

theorem test_pd : (after { cpu 0 (-1) [] with out := [9] } 0xE000).map State.out = some [9, -1] := by decide
theorem test_pd_frame : seen (cpu 0 (-1) []) 0xE000 = some (-1, 2, .running) := by decide

theorem test_os_zero : seen (cpu 0x10 7 []) 0xF000 = some (7, 0x12, .terminated) := by decide
theorem test_os_other :
    seen (cpu 0x10 7 []) 0xF001 = some (7, 0x12, faultAt (.unimplemented 1) 0x12 7) ∧
    seen (cpu 0x10 7 []) 0xFFFF = some (7, 0x12, faultAt (.unimplemented 4095) 0x12 7) := by decide

/-- 2.2: a fetch at 4096 faults and PC is not advanced. -/
theorem test_fetch_past_the_end :
    (nextOf (step (cpu 4096 7 []))).map State.run = some (faultAt (.outOfRange 4096) 4096 7) := by decide

/-- 1.2: a fetch at 4094 succeeds and leaves PC at 4096. -/
theorem test_fetch_at_the_end : seen (cpu 0xFFE 7 []) 0x3001 = some (1, 4096, .running) := by decide

/-- 2.5: a store over the next instruction is what the next fetch reads. -/
theorem test_self_modifying :
    ((after (cpu 0x40 (-1) []) 0x9042).bind fun t => (nextOf (step t)).map State.run) =
      some (faultAt (.unimplemented 0xFFF) 0x44 (-1)) := by decide

/-- 2.7: GD in the PC mode, even and odd. -/
theorem test_gd_pc_mode :
    seen { withStrings (cpu 0 5 []) ["64"] with gdMode := .pc } 0xD000 = some (5, 0x40, .running) ∧
    seen { withStrings (cpu 0 5 []) ["65"] with gdMode := .pc } 0xD000 =
      some (5, 2, faultAt (.invalidAddress 65) 2 5) := by decide

/-- A CPU that waits in HM, with what the host will do. -/
def waiting (target : Bits12) (line : List Bool) : State :=
  { cpu 0x22 7 [] with run := .haltedWaiting target, resumeLine := line }

/-- 2.7: the resume at an even and at an odd target, and the wait while no signal comes. -/
theorem test_resume :
    (nextOf (step (waiting 0x030 [true]))).map (fun t => (t.pc.toNat, t.run)) = some (0x30, .running) ∧
    (nextOf (step (waiting 0x031 [true]))).map State.run = some (faultAt (.invalidAddress 0x31) 0x22 7) ∧
    (nextOf (step (waiting 0x030 [false, true]))).map State.run = some (.haltedWaiting 0x030) := by decide

/-- There is no step after the end of a run (R71). -/
theorem test_no_step_after_the_end :
    step { State.reset with run := .terminated } = .fault .runTerminated ∧
    step { State.reset with run := faultAt (.overflow 0) 2 0 } = .fault .runFaulted := ⟨rfl, rfl⟩

/-! ### Launch (95_test_vectors.md section 2.9) -/

/-- A launch with AC_INIT 5, MEM_INIT one cell, ENTRY as given. -/
def plain (entry : Option Bits12) : LaunchParams :=
  { memInit := [(9, 1)], acInit := 5, entry := entry, gdMode := .ac, input := [], resumeLine := [] }

theorem test_launch :
    launchBytes [0x00, 0x00, 0x01, 0xFF, 0x80, 0x05] (plain none) =
      .ok { cpu 0 5 [(0, 0x80), (1, 5), (9, 1)] with run := .running } := by rfl

theorem test_launch_empty_body :
    launchBytes [0x01, 0x00, 0x00, 0x01] (plain none) = .ok (cpu 0x100 5 [(9, 1)]) := by rfl

theorem test_launch_odd_entry :
    (launchBytes [0x01, 0x00, 0x01, 0x02, 0xF0, 0x00] (plain (some 0x101))).map State.run =
      .ok (faultAt (.invalidAddress 0x101) 0x101 5) := by rfl

theorem test_load_too_far :
    launchBytes [0x0F, 0xFE, 0x01, 0x0E, 0x00, 0x00] (plain none) =
      .error (.capacityExceeded 4094 2 4096) := by rfl

/-! ### The assembler (95_test_vectors.md section 2.10) -/

/-- The bytes of an assembled source, or its error. -/
def built (source : String) : Except AsmError (List Byte) := (assemble [] source.toList).map Image.toBytes

theorem test_asm_forward_reference :
    built "@ /010\nJMP FWD\nFWD\nOS 0\n#" = .ok [0x00, 0x10, 0x02, 0x12, 0x00, 0x12, 0xF0, 0x00] := by rfl

theorem test_asm_comments_and_case :
    built "@ 0 ; origin\n  LV /7ff   ; max\n\tPD\n; full line\nOS 0\n# ; end\nJUNK LINE IGNORED\n" =
      .ok [0x00, 0x00, 0x03, 0x03, 0x37, 0xFF, 0xE0, 0x00, 0xF0, 0x00] := by rfl

theorem test_asm_constants :
    built "@ /200\nPTR K DATA\nDATA K /ABC\n#" =
      .ok [0x02, 0x00, 0x02, 0x04, 0x02, 0x02, 0x0A, 0xBC] := by rfl

theorem test_asm_name_conflict :
    built "@ 0\nX\nLV 1\nX\nOS 0\n#" = .error (.nameConflict 4 ['X']) := by rfl

theorem test_asm_literal_too_large :
    built "@ 0\nLV 4096\n#" = .error (.capacityExceeded (.literal 2 ['4', '0', '9', '6'])) := by rfl

theorem test_asm_undeclared :
    built "@ 0\nOS 0\n# NOPE" = .error (.undeclaredSymbol 3 ['N', 'O', 'P', 'E']) := by rfl

/-- R106, R112: a `#` operand that is no name resolves in no table; R100: a reserved word fails at its line. -/
theorem test_asm_end_operand :
    built "@ 0\nOS 0\n# 12" = .error (.undeclaredSymbol 3 ['1', '2']) ∧
    built "@ 0\nJMP NO\n# 12" = .error (.undeclaredSymbol 2 ['N', 'O']) ∧
    built "@ 0\nOS 0\n# add" = .error (.parseFault 3 ['a', 'd', 'd']) := ⟨rfl, rfl, rfl⟩

theorem test_asm_no_end : built "@ 0\nOS 0\n" = .error (.parseFault 4 endOfInput) := by rfl

theorem test_asm_reserved_name : built "@ 0\nADD K 1\n#" = .error (.parseFault 2 ['A', 'D', 'D']) := by rfl

theorem test_asm_past_the_end :
    built "@ /FFC\nLV 1\nLV 2\n#" = .error (.capacityExceeded (.word 3 4092 4 4096)) := by rfl

/-- R64, R101: a SHORTHAND letter is a mnemonic, and then no name. -/
theorem test_asm_shorthand :
    (assemble [('J', 0)] "@ 0\nJ 4\n#".toList).map Image.toBytes = .ok [0x00, 0x00, 0x01, 0x01, 0x00, 0x04] := by rfl

/-! ### Witnesses: for each statement with hypotheses, values that meet all of them together; where it has
clauses over one input, boundary values of each -/

theorem test_witness_DecodeInvertsEncode : (Instr.jmp 0).wf = true ∧ (Instr.os 4095).wf = true := by decide

theorem test_witness_MemoryPrimitives :
    Memory.wf [(0, 1), (4095, 9)] = true ∧
    memReadByte [(0, 1), (4095, 9)] 4095 = .ok 9 ∧ memReadByte [(0, 1), (4095, 9)] 4096 = .error (.outOfRange 4096) ∧
    memReadWord [(0, 1), (4095, 9)] 4094 = .ok 9 ∧ memReadWord [(0, 1), (4095, 9)] 4095 = .error (.outOfRange 4096) ∧
    memWriteWord [(0, 1), (4095, 9)] 4094 0x0700 = .ok [(0, 1), (4094, 7)] ∧
    memWriteByte [(0, 1), (4095, 9)] 0 2 = .ok [(0, 2), (4095, 9)] :=
  ⟨by decide, rfl, rfl, rfl, rfl, rfl, rfl⟩

/-- Each range of R8, at its ends. -/
theorem test_witness_SignExtensionLaws :
    sext12 (-2048) = -2048 ∧ sext12 2047 = 2047 ∧ sext12 0 = 0 ∧ sext12 2048 = -2048 ∧ sext12 4095 = -1 := by decide

/-- A divisor that is not 0, for both signs of the quotient, and a quotient of 0. -/
theorem test_witness_DivisionTruncatesTowardZero :
    ((2 : Int) ≠ 0 ∧ tdiv (-7) 2 = -3) ∧ ((-2 : Int) ≠ 0 ∧ tdiv (-7) (-2) = 3) ∧ ((-2 : Int) ≠ 0 ∧ tdiv 0 (-2) = 0) := by
  decide

theorem test_witness_DataOperandReads :
    opnd (cpu 0 0 [(4094, 0xF8), (4095, 1)]) (addressOf 4094) = .ok (-2047) ∧
    opnd (cpu 0 0 [(4095, 9)]) (addressOf 4095) = .error (.outOfRange 4096) := by decide

/-- Canonical memory, and the result at the last address that stores, and at the one that faults. -/
theorem test_witness_MmResult :
    (cpu 2 (-3) [(9, 1)]).mem.wf = true ∧
    (nextOf (exec (.mm 4094) (cpu 2 (-3) [(9, 1)]))).map State.mem = some [(9, 1), (4094, 0xFF), (4095, 0xFD)] ∧
    nextOf (exec (.mm 4095) (cpu 2 (-3) [(9, 1)])) = some (faultedWith (cpu 2 (-3) [(9, 1)]) (.outOfRange 4096)) := by
  decide

/-- Canonical memory, and each of SC's clauses: even, odd, 4094, 4095. -/
theorem test_witness_ScResult :
    (cpu 0x104 7 []).mem.wf = true ∧
    nextOf (exec (.sc 0) (cpu 0x104 7 [])) = some (cpu 2 7 [(0, 1), (1, 4)]) ∧
    nextOf (exec (.sc 4094) (cpu 0x104 7 [])) = some (cpu 4096 7 [(4094, 1), (4095, 4)]) ∧
    nextOf (exec (.sc 4093) (cpu 0x104 7 [])) = some (faultedWith (cpu 0x104 7 []) (.invalidAddress 4095)) ∧
    nextOf (exec (.sc 4095) (cpu 0x104 7 [])) = some (faultedWith (cpu 0x104 7 []) (.outOfRange 4096)) := by decide

/-- Each of RS's clauses: a slot of 0x0F00, 0x1000, 0x0F01, and the address 4095. -/
theorem test_witness_RsResult :
    nextOf (exec (.rs 4094) (cpu 2 7 [(4094, 0x0F)])) = some (cpu 0xF00 7 [(4094, 0x0F)]) ∧
    nextOf (exec (.rs 4094) (cpu 2 7 [(4094, 0x10)])) =
      some (faultedWith (cpu 2 7 [(4094, 0x10)]) (.overflow 4094)) ∧
    nextOf (exec (.rs 0) (cpu 2 7 [(0, 0x0F), (1, 1)])) =
      some (faultedWith (cpu 2 7 [(0, 0x0F), (1, 1)]) (.invalidAddress 0xF01)) ∧
    nextOf (exec (.rs 4095) (cpu 2 7 [])) = some (faultedWith (cpu 2 7 []) (.outOfRange 4096)) := by decide

/-- HALTED_WAITING with a signal at an even target, at an odd one, and with none. -/
theorem test_witness_HmAndResume :
    ((waiting 4094 [true]).run = .haltedWaiting 4094 ∧ (waiting 4094 [true]).resumeLine.head? = some true) ∧
    ((waiting 4095 [true]).run = .haltedWaiting 4095 ∧ (waiting 4095 [true]).resumeLine.head? = some true) ∧
    ((waiting 0 []).run = .haltedWaiting 0 ∧ (waiting 0 []).resumeLine.head? ≠ some true) := by decide

/-- A malformed string before a valid one, in both modes, even and odd. -/
theorem test_witness_GdResult :
    ((withStrings (cpu 2 5 []) ["x", "4095", "7"]).input = [str "x"] ++ str "4095" :: [str "7"] ∧
      (∀ b ∈ [str "x"], parseInput b = none) ∧ parseInput (str "4095") = some 4095) ∧
    (cpu 2 5 []).gdMode = .ac ∧ ({ cpu 2 5 [] with gdMode := .pc } : State).gdMode = .pc ∧
    nextOf (exec (.gd 0) { withStrings (cpu 2 5 []) ["x", "4094", "7"] with gdMode := .pc }) =
      some { withStrings (cpu 4094 5 []) ["7"] with gdMode := .pc } ∧
    parseInput (str "4096") = none ∧ parseInput (str "0") = some 0 := by decide

/-- GD at PC 4094, the last address that fetches, with malformed strings only. -/
theorem test_witness_GdWaitsUnchanged :
    (withStrings (cpu 4094 5 [(4094, 0xD0)]) ["x", "-1"]).run = .running ∧
    (withStrings (cpu 4094 5 [(4094, 0xD0)]) ["x", "-1"]).pc.toNat + 2 ≤ 4096 ∧
    fetchedInstr (withStrings (cpu 4094 5 [(4094, 0xD0)]) ["x", "-1"]) = .gd 0 ∧
    (∀ b ∈ (withStrings (cpu 4094 5 [(4094, 0xD0)]) ["x", "-1"]).input, parseInput b = none) := by decide

theorem test_witness_address_not_4095 : (0 : Bits12) ≠ 4095 ∧ (4094 : Bits12) ≠ 4095 := by decide

/-- R80's clauses: a divisor of 0, the quotient that wraps, and one that does not. -/
theorem test_witness_DivWrapsOnlyAtMinusOne :
    (4094 : Bits12) ≠ 4095 ∧ dataOperand (cpu 2 5 [(4094, 0x10)]) 4094 = 0 ∧
    ((cpu 2 (-2048) [(4094, 0x0F), (4095, 0xFF)]).ac.toInt = -2048 ∧
      dataOperand (cpu 2 (-2048) [(4094, 0x0F), (4095, 0xFF)]) 4094 = -1) ∧
    dataOperand (cpu 2 (-2048) [(4095, 1)]) 4094 = 1 := by decide

theorem test_witness_LdAfterMmRestoresAc : (cpu 2 (-3) [(9, 1)]).mem.wf = true ∧ (4094 : Bits12) ≠ 4095 := by decide

/-- The return address 0 and 4094, the slot 0 and 4092. -/
theorem test_witness_RsAfterScReturns :
    ((cpu 0 7 []).mem.wf = true ∧ (cpu 0 7 []).pcOk ∧ (cpu 0 7 []).pc.toNat < 4096) ∧
    ((cpu 4094 7 []).mem.wf = true ∧ (cpu 4094 7 []).pcOk ∧ (cpu 4094 7 []).pc.toNat < 4096) ∧
    ((0 : Bits12).toNat % 2 = 0 ∧ (0 : Bits12).toNat ≤ 4092) ∧
    ((4092 : Bits12).toNat % 2 = 0 ∧ (4092 : Bits12).toNat ≤ 4092) := by
  unfold State.pcOk; decide

/-- A store by MM, and one by SC, and a fetch from the address they stored to. -/
theorem test_witness_StoresReachTheNextFetch :
    (cpu 2 (-3) []).mem.wf = true ∧ (0x40 : Bits12).toNat % 2 = 0 ∧
    (cpu 0x40 0 [(0x40, 0xFF), (0x41, 0xFD)]).pc.toNat = (0x40 : Bits12).toNat ∧
    nextOf (exec (.mm 0x40) (cpu 2 (-3) [])) = some (cpu 2 (-3) [(0x40, 0xFF), (0x41, 0xFD)]) ∧
    nextOf (exec (.sc 0x40) (cpu 2 (-3) [])) = some (cpu 0x42 (-3) [(0x41, 2)]) := by decide

/-- PC at 4094, which fetches, and at 4096, which does not; both meet R18. -/
theorem test_witness_FetchReadsAndAdvances :
    ¬ (cpu 4094 0 []).pc.toNat + 2 > 4096 ∧ (cpu 4096 0 []).pc.toNat + 2 > 4096 ∧ (cpu 4094 0 []).pcOk ∧
    (cpu 4096 0 []).pcOk := by
  unfold State.pcOk; decide

theorem test_witness_StepRunsTheDecodedInstruction :
    (cpu 4094 0 [(4094, 0x30), (4095, 5)]).run = .running ∧
    (cpu 4094 0 [(4094, 0x30), (4095, 5)]).pc.toNat + 2 ≤ 4096 ∧
    decode [(cpu 4094 0 [(4094, 0x30), (4095, 5)]).mem.read 4094,
      (cpu 4094 0 [(4094, 0x30), (4095, 5)]).mem.read 4095] = .ok (.lv 5, []) ∧
    (Instr.lv 5).wf = true := ⟨by decide, by decide, rfl, by decide⟩

theorem test_witness_OddPcIsNeverWritten :
    (4096 ≤ 4096 ∧ setPc 4096 (cpu 2 0 []) = .ok (cpu 4096 0 [])) ∧
    (4095 ≤ 4096 ∧ setPc 4095 (cpu 2 0 []) = .error (.invalidAddress 4095)) :=
  ⟨⟨by decide, rfl⟩, by decide, rfl⟩

/-- A running CPU and a waiting one, with an error to come and with none. -/
theorem test_witness_ErrorsAreExactlyTheListed :
    ((cpu 4096 7 []).run = .running ∧ stepError (cpu 4096 7 []) = some (.outOfRange 4096)) ∧
    ((cpu 0 7 [(0, 0xA0), (1, 1)]).run = .running ∧
      stepError (cpu 0 7 [(0, 0xA0), (1, 1)]) = some (.invalidAddress 3)) ∧
    ((cpu 0 7 []).run = .running ∧ stepError (cpu 0 7 []) = none) ∧
    ((waiting 0x31 [true]).run = .haltedWaiting 0x31 ∧ stepError (waiting 0x31 [true]) = some (.invalidAddress 0x31)) ∧
    ((waiting 0x31 [false]).run = .haltedWaiting 0x31 ∧ stepError (waiting 0x31 [false]) = none) := by decide

/-- A fault of the fetch, of an instruction, and of the resume. -/
theorem test_witness_FaultEntryIsPrecise :
    nextOf (step (cpu 4096 7 [])) = some (faultedWith (cpu 4096 7 []) (.outOfRange 4096)) ∧
    nextOf (step (cpu 0x40 7 [(0x40, 0xF0), (0x41, 1)])) =
      some (faultedWith (cpu 0x42 7 [(0x40, 0xF0), (0x41, 1)]) (.unimplemented 1)) ∧
    nextOf (step (waiting 0x31 [true])) = some (faultedWith (waiting 0x31 []) (.invalidAddress 0x31)) := by decide

/-- Each premise of the statement about AC is met by some instruction, and by no contradiction. -/
theorem test_witness_AcReadersAndWriters :
    writesAc .ac (.mm 0) = false ∧ writesAc .pc (.gd 0) = false ∧ readsAc (.lv 0) = false ∧
    ((cpu 2 7 []).run = .running ∧
      (nextOf (exec (.os 1) (cpu 2 7 []))).map State.run = some (faultAt (.unimplemented 1) 2 7)) := by decide

theorem test_witness_WritersOfEachState :
    writesMem (.ld 0) = false ∧ writesPc (.mm 0) = false ∧ emits (.gd 0) = false ∧ readsInput (.pd 0) = false := by
  decide

/-- A step into TERMINATED, one into HALTED_WAITING, one that stays there, and the two ends. -/
theorem test_witness_RunStateTransitions :
    (nextOf (step (cpu 0 7 [(0, 0xF0)]))).map State.run = some .terminated ∧
    (nextOf (step (cpu 0 7 [(0, 0xC0), (1, 9)]))).map State.run = some (.haltedWaiting 9) ∧
    (nextOf (step (waiting 9 []))).map State.run = some (.haltedWaiting 9) ∧
    State.ended { cpu 0 7 [] with run := .terminated } = true ∧
    State.ended { cpu 0 7 [] with run := faultAt (.overflow 0) 0 7 } = true := by decide

/-- A state with listed memory, an output and a step that is no fault. -/
theorem test_witness_EveryStepKeepsInv :
    ({ cpu 4094 (-1) [(4094, 0xE0), (4095, 1)] with out := [2047, -2048] } : State).Inv ∧
    nextOf (step { cpu 4094 (-1) [(4094, 0xE0), (4095, 1)] with out := [2047, -2048] }) =
      some { cpu 4096 (-1) [(4094, 0xE0), (4095, 1)] with out := [2047, -2048, -1] } := by
  refine ⟨⟨⟨by decide, by decide⟩, by decide, ?_, ?_⟩, by decide⟩
  · unfold State.outOk; decide
  · intro e pc ac h; cases h

/-- The wait of an HM for two steps, and the wait of a GD. -/
theorem test_witness_WaitsKeepTheState :
    ((waiting 9 [false, false, true]).run = .haltedWaiting 9 ∧
      ∀ b ∈ (waiting 9 [false, false, true]).resumeLine.take 2, b = false) ∧
    ((withStrings (cpu 4094 5 [(4094, 0xD0)]) ["x"]).run = .running ∧
      (withStrings (cpu 4094 5 [(4094, 0xD0)]) ["x"]).pc.toNat + 2 ≤ 4096 ∧
      fetchedInstr (withStrings (cpu 4094 5 [(4094, 0xD0)]) ["x"]) = .gd 0 ∧
      ∀ b ∈ (withStrings (cpu 4094 5 [(4094, 0xD0)]) ["x"]).input, parseInput b = none) := by decide

theorem test_witness_StrayResumeIgnored : ∀ t, (cpu 0 7 []).run ≠ .haltedWaiting t := by
  intro t h; cases h

/-- The image of the source's example, with its body. -/
def example118 : Image := { origin := 0, length := 1, checksum := 1, body := [0x80, 0x05] }

theorem test_witness_LoadCopiesTheBody :
    Memory.wf [(9, 1)] = true ∧ load example118 [(9, 1)] = .ok [(0, 0x80), (1, 5), (9, 1)] := ⟨by decide, rfl⟩

/-- Each end of the loader's range: a body that ends at 4094, and one that would end at 4096. -/
theorem test_witness_AssembledImagesLoad :
    (example118.bodyFits = true ∧ (example118.origin.toNat + 2 * example118.length.toNat < 4096)) ∧
    (load { origin := 4093, length := 1, checksum := 0, body := [0, 5] } [] = .ok [(4094, 5)]) ∧
    (load { origin := 4094, length := 1, checksum := 0, body := [0, 5] } (plain none).memInit =
      .error (.capacityExceeded 4094 2 4096)) ∧
    assemble [] "@ /000\nLD /005\n#\n".toList = .ok example118 := ⟨by decide, rfl, rfl, rfl⟩

theorem test_witness_LaunchStartsTheRun :
    entryOf example118 (plain none) % 2 = 0 ∧ entryOf example118 (plain (some 4095)) % 2 = 1 := by decide

theorem test_witness_LaunchedRunsKeepInv :
    (plain none).memInit.wf = true ∧ entryOf example118 (plain none) % 2 = 0 ∧
    launch example118 (plain none) = .ok (cpu 0 5 [(0, 0x80), (1, 5), (9, 1)]) ∧
    nextOf (step (cpu 0 5 [(0, 0x80), (1, 5), (9, 1)])) = some (cpu 2 0 [(0, 0x80), (1, 5), (9, 1)]) ∧
    Sys2Proof.core.run 1 (cpu 0 5 [(0, 0x80), (1, 5), (9, 1)]) = .next (cpu 2 0 [(0, 0x80), (1, 5), (9, 1)]) :=
  ⟨by decide, by decide, rfl, by decide +kernel, run_succ_of_next (next_of_nextOf (by decide +kernel)) 0⟩

theorem test_witness_AssembledImageForm : assemble [] "@ /000\nLD /005\n#\n".toList = .ok example118 := by rfl

/-- A program with two symbols, one after the last word. -/
theorem test_witness_SymbolsAreDistinct :
    (pass1 [] "@ 0\nA\nOS 0\nB\n#".toList).map (fun p => (p.origin, p.length, p.symtab)) =
      .ok (0, 2, [(['A'], 0), (['B'], 2)]) := by rfl

/-- A reference that resolves, and one that does not. -/
theorem test_witness_ResolutionNeedsDeclarations :
    resolveRecords [(['A'], 4)] [.word (.instr 0) (.sym ['A']) 2 0] = .ok [4] ∧
    resolveRecords [(['A'], 4)] [.word (.instr 0) (.sym ['B']) 2 0] = .error (.undeclaredSymbol 2 ['B']) := ⟨rfl, rfl⟩

/-- R64's own spellings, a name that is no mnemonic, and each kind of premise of the statement. -/
theorem test_witness_AssemblerAndDecoderAgree :
    (("JMP".toList, (0 : Opcode)) ∈ mnemonicRows ∧ Spells "Jmp".toList "JMP".toList ∧
      Spells "jmp".toList "JMP".toList) ∧
    (("OS".toList, (15 : Opcode)) ∈ mnemonicRows ∧ Spells "oS".toList "OS".toList) ∧
    mnemonicOpcode [] "jz".toList = some 1 ∧ mnemonicOpcode [] "J".toList = none := by
  unfold Spells; decide +kernel

/-- A table that holds `X`, at origin 0. -/
def declaredX : Pass1 := { origin := 0, length := 2, symtab := [(['X'], 0)], records := [] }

/-- A label and a constant that declare `X` again, the constant also with an argument that is none; and a
source whose pass 1 fails. -/
theorem test_witness_RedeclarationFailsNameConflict :
    (isName [] ['X'] = true ∧ ['X'] ∈ declaredX.symtab.map Prod.fst) ∧
    (declares (tokens (stripComment "X ; again".toList)) ['X'] ∧
      argReads [] 4 (tokens (stripComment "X ; again".toList))) ∧
    (declares (tokens (stripComment "X K 1".toList)) ['X'] ∧ parseArg [] 4 ['1'] = .ok (.lit 1)) ∧
    (declares (tokens (stripComment "X k 1a".toList)) ['X'] ∧
      parseArg [] 4 ['1', 'a'] = .error (.parseFault 4 ['1', 'a'])) ∧
    scanLine [] 4 [['X']] declaredX = .error (.nameConflict 4 ['X']) ∧
    pass1 [] "@ 0\nX\nX K 1\n#".toList = .error (.nameConflict 3 ['X']) := by
  refine ⟨by decide, ⟨.inl rfl, ?_⟩, ⟨.inr ⟨['K'], ['1'], rfl, rfl⟩, rfl⟩,
    ⟨.inr ⟨['k'], ['1', 'a'], rfl, rfl⟩, rfl⟩, rfl, rfl⟩
  intro name k arg h
  cases h

/-- An operand that is no name, and a name that is not declared; each in a program that pass 1 accepts. -/
theorem test_witness_EndOperandMustResolve :
    ((pass1 [] "@ 0\n# 12".toList).map Pass1.records = .ok [.endMark (some ['1', '2']) 2 0] ∧
      isName [] ['1', '2'] = false) ∧
    ((pass1 [] "@ 0\nA\n# B".toList).map (fun p => (p.records, p.symtab)) =
        .ok ([.endMark (some ['B']) 3 0], [(['A'], 0)]) ∧
      isName [] ['B'] = true) ∧
    isReserved [] ['K'] = true ∧ isReserved [] ['1', '2'] = false :=
  ⟨⟨rfl, by decide⟩, ⟨rfl, by decide⟩, by decide, by decide⟩

theorem test_witness_InputStringsAccepted :
    parseInput (str " 4095 ") = some 4095 ∧ parseInput (str "/0fF") = some 255 ∧ parseInput (str "4096") = none ∧
    parseInput (str "1 2") = none := by decide

end Sys2Proof.Tests
end

section
/-! PROOFS. The statements of spec/00_scope.md on the shared operations: memory access (R11), sign
extension (R8) and truncating division (R10). -/

namespace Sys2Proof.Machine

/-! ### Sign extension (R8) -/

/-- Sign extension of a value that is already one changes nothing. -/
theorem sext12_sext12 (x : Int) : sext12 (sext12 x) = sext12 x :=
  sext12_of_mem (sext12_mem x)

/-- A number and its sign extension have the same low 12 bits: as values of AC they are the same. -/
theorem ofInt12_sext12 (x : Int) : BitVec.ofInt 12 (sext12 x) = BitVec.ofInt 12 x := by
  apply BitVec.eq_of_toInt_eq
  rw [toInt_ofInt12, toInt_ofInt12, sext12_sext12]

/-- On unsigned 12-bit numbers the upper half, and only that, wraps to the negatives (R8). -/
theorem sext12_of_unsigned {x : Int} (h : 0 ≤ x ∧ x < 4096) :
    sext12 x = if x < 2048 then x else x - 4096 := by
  obtain ⟨hlow, hhigh⟩ := h
  split
  · exact sext12_of_mem ⟨by omega, by omega⟩
  · unfold sext12; omega

/-! ### Truncating division (R10) -/

/-- R10's sign rule, first half: same signs, or a zero dividend, leave the quotient of the sizes as it is. -/
theorem tdiv_of_sameSign {a b : Int} (h : (a < 0 ↔ b < 0) ∨ a = 0) :
    tdiv a b = (a.natAbs / b.natAbs : Nat) := by
  have hsign : (sameSign a b || a == 0) = true := by simpa [sameSign] using h
  rw [tdiv, if_pos hsign, one_mul]

/-- R10's sign rule, second half: different signs negate the quotient of the sizes. -/
theorem tdiv_of_not_sameSign {a b : Int} (h : ¬ ((a < 0 ↔ b < 0) ∨ a = 0)) :
    tdiv a b = -(a.natAbs / b.natAbs : Nat) := by
  have hsign : ¬ (sameSign a b || a == 0) = true := by simpa [sameSign] using h
  rw [tdiv, if_neg hsign, neg_one_mul]

/-! ### Memory accesses (R11) -/

/-- A one-byte access inside memory: the cell read, and the write with its frame. -/
theorem memByte_access {m : Memory} {a : Nat} (hm : m.wf = true) (ha : a + 1 ≤ 4096) :
    memReadByte m a = .ok (m.read a) ∧
      ∀ v : Byte, ∃ m', memWriteByte m a v = .ok m' ∧ m'.wf = true ∧ m'.read a = v ∧
        ∀ x, x ≠ a → m'.read x = m.read x := by
  refine ⟨by rw [memReadByte_eq, if_pos ha], fun v => ⟨m.write a v, ?_, ?_, ?_, ?_⟩⟩
  · rw [memWriteByte_eq, if_pos ha]
  · exact Memory.wf_write hm ha v
  · exact Memory.read_write_same_from hm a v
  · exact fun x hx => Memory.read_write_other m v hx

/-- A two-byte access inside memory: the big-endian number read, and the write with its frame. -/
theorem memWord_access {m : Memory} {a : Nat} (hm : m.wf = true) (ha : a + 2 ≤ 4096) :
    (∃ w, memReadWord m a = .ok w ∧ w.toNat = (m.read a).toNat * 256 + (m.read (a + 1)).toNat) ∧
      ∀ v : Word, ∃ m', memWriteWord m a v = .ok m' ∧ m'.wf = true ∧
        (m'.read a).toNat = v.toNat / 256 ∧ (m'.read (a + 1)).toNat = v.toNat % 256 ∧
        ∀ x, x ≠ a → x ≠ a + 1 → m'.read x = m.read x := by
  refine ⟨⟨m.wordAt a, by rw [memReadWord_eq, if_pos ha], wordAt_toNat m a⟩,
    fun v => ⟨m.putWord a v, ?_, Memory.wf_putWord hm ha v, ?_, ?_, ?_⟩⟩
  · rw [memWriteWord_eq, if_pos ha]
  · rw [Memory.read_putWord hm ha, if_pos rfl, Word.firstByte_toNat]
  · rw [Memory.read_putWord hm ha, if_neg (Nat.succ_ne_self a), if_pos rfl, Word.secondByte_toNat]
  · intro x hfirst hsecond
    rw [Memory.read_putWord hm ha, if_neg hfirst, if_neg hsecond]

end Sys2Proof.Machine

namespace Sys2Proof.Proofs

open Sys2Proof.Machine

/-- Settles O7. -/
theorem signExtensionLaws : Obligations.SignExtensionLaws := by
  intro x
  obtain ⟨hlow, hhigh⟩ := sext12_mem x
  exact ⟨rfl, hlow, hhigh, ofInt12_sext12 x, sext12_sext12 x, sext12_of_mem, sext12_of_unsigned⟩

/-- Settles O8, by the two halves of R10's sign rule. Both hold at `b = 0` too, where Lean's
division gives 0, so the hypothesis is not used. -/
theorem divisionTruncatesTowardZero : Obligations.DivisionTruncatesTowardZero := by
  intro a b _
  split
  · next hsame =>
    rw [tdiv_of_sameSign hsame]
    exact ⟨Int.natAbs_natCast _, Int.natCast_nonneg _⟩
  · next hdiff =>
    rw [tdiv_of_not_sameSign hdiff, Int.natAbs_neg]
    exact ⟨Int.natAbs_natCast _, Int.neg_nonpos_of_nonneg (Int.natCast_nonneg _)⟩

/-- Settles O6, by the range check of each width: inside memory the access lemma of that width,
outside it the one OutOfRange that read and write share. -/
theorem memoryPrimitives : Obligations.MemoryPrimitives := by
  intro m a hm
  constructor
  · split
    · next hbyte => exact memByte_access hm hbyte
    · next hbyte =>
      exact ⟨a, by rw [memReadByte_eq, if_neg hbyte], fun v => by rw [memWriteByte_eq, if_neg hbyte]⟩
  · split
    · next hword => exact memWord_access hm hword
    · next hword =>
      exact ⟨a + 1, by rw [memReadWord_eq, if_neg hword], fun v => by rw [memWriteWord_eq, if_neg hword]⟩

end Sys2Proof.Proofs
end

section
/-! PROOFS. Family 30_encoding.md: the fields a decoded instruction carries, from the two bytes of its word. -/

namespace Sys2Proof

/-! ### The fields of a word (R56, R57) -/

theorem opField_toNat (w : Word) : (opField w).toNat = w.toNat / 4096 := by
  simp only [opField, BitVec.toNat_ofNat]; omega

theorem operandField_toNat (w : Word) : (operandField w).toNat = w.toNat % 4096 := by
  simp only [operandField, BitVec.toNat_ofNat]

/-- The first nibble of the first byte is the opcode field: the second byte is below 256, so it
carries nothing into bits 15..12. -/
theorem opField_wordOfBytes_toNat (b0 b1 : Byte) :
    (opField (wordOfBytes b0 b1)).toNat = b0.toNat / 16 := by
  rw [opField_toNat, wordOfBytes_toNat]; omega

theorem operandField_wordOfBytes_toNat (b0 b1 : Byte) :
    (operandField (wordOfBytes b0 b1)).toNat = b0.toNat % 16 * 256 + b1.toNat := by
  rw [operandField_toNat, wordOfBytes_toNat]; omega

/-! ### The decoded instruction keeps both fields of its word -/

@[simp] theorem decodeWord_opcode (w : Word) : (decodeWord w).opcode = opField w :=
  instrOf_opcode _ _

@[simp] theorem decodeWord_operand (w : Word) : (decodeWord w).operand = operandField w :=
  instrOf_operand _ _

end Sys2Proof

namespace Sys2Proof.Proofs

/-- Settles O3: the table row an opcode picks has that opcode and keeps its operand, so both are
read off the word's two fields. -/
theorem decodeReadsTheFields : Obligations.DecodeReadsTheFields := by
  intro b0 b1
  rw [decodeWord_opcode, decodeWord_operand]
  exact ⟨opField_wordOfBytes_toNat b0 b1, operandField_wordOfBytes_toNat b0 b1, BitVec.isLt _⟩

end Sys2Proof.Proofs
end

section
/-! PROOFS. Family 40_cycle.md: the fetch (R66). -/

namespace Sys2Proof.Proofs

open Sys2Proof.Machine Sys2Proof.Claims

/-! ### The fetch (R66) -/

/-- The word a fetch reads is the big-endian number that the statements write out. -/
theorem wordAt_eq_ofNat_memWord (m : Memory) (a : Nat) : m.wordAt a = BitVec.ofNat 16 (memWord m a) := rfl

theorem fetch_past_end {s : State} (h : 4096 < s.pc.toNat + 2) : fetch s = .error (.outOfRange s.pc.toNat) := by
  rcases fetch_cases s with ⟨_, hf⟩ | ⟨hle, _⟩
  · exact hf
  · exact absurd h (Nat.not_lt.mpr hle)

theorem fetch_within {s : State} (h : s.pc.toNat + 2 ≤ 4096) :
    fetch s = .ok (BitVec.ofNat 16 (memWord s.mem s.pc.toNat), s.putPc (s.pc.toNat + 2)) := by
  rcases fetch_cases s with ⟨hlt, _⟩ | ⟨_, hf⟩
  · exact absurd h (Nat.not_le.mpr hlt)
  · rw [hf, wordAt_eq_ofNat_memWord]

/-- The range check is the one way a fetch fails. -/
theorem fetch_fails_iff (s : State) : (∃ e, fetch s = .error e) ↔ 4096 < s.pc.toNat + 2 := by
  constructor
  · rintro ⟨e, he⟩
    by_contra hin
    rw [fetch_within (Nat.not_lt.mp hin)] at he
    cases he
  · exact fun h => ⟨_, fetch_past_end h⟩

/-- Of R18's PC values, even and at most 4096, only 4096 has no word left before the end of memory. -/
theorem pcOk_past_end_iff {s : State} (h : s.pcOk) : 4096 < s.pc.toNat + 2 ↔ s.pc.toNat = 4096 := by
  obtain ⟨heven, hle⟩ := h
  unfold Config.memSize at hle
  omega

/-- Settles O34, by the range check for the outcome, and by R18's parity for the one address that fails. -/
theorem fetchReadsAndAdvances : Obligations.FetchReadsAndAdvances := by
  intro s
  refine ⟨?_, fun hpc => (fetch_fails_iff s).trans (pcOk_past_end_iff hpc)⟩
  split
  · next hpast => exact fetch_past_end hpast
  · next hin =>
    have hle : s.pc.toNat + 2 ≤ 4096 := Nat.not_lt.mp hin
    exact ⟨(s.putPc (s.pc.toNat + 2)).pc, putPc_toNat s hle, fetch_within hle⟩

end Sys2Proof.Proofs
end

section
/-! PROOFS. Family 41_jumps.md: JMP, JZ and JN (R73 to R75). The three share the checked PC write; JZ
and JN reach it only when the branch is taken (decision D9). -/

namespace Sys2Proof

/-- The word of an instruction whose opcode is number `op`, as a number (R56). -/
theorem encode_toNat_of_opcode {i : Instr} (op : Nat) (h : i.opcode.toNat = op) :
    (encode i).toNat = op * 4096 + i.operand.toNat := by
  obtain ⟨hword, _, _⟩ := Laws.EncodingFields.of_fields i
  rw [hword, h]

end Sys2Proof

namespace Sys2Proof.Machine

open Sys2Proof.Claims

/-! ### The outcome of a jump that is taken (R67, R126) -/

/-- A checked PC write ends an instruction in one of two ways: an odd target faults with PC kept, an even
one becomes PC. -/
theorem finish_setPc (v : Nat) (s : State) :
    s.finish (setPc v s) =
      .next (if v % 2 = 1 then faultedWith s (.invalidAddress v) else { s with pc := BitVec.ofNat 13 v }) := by
  rw [setPc_eq]
  split
  · exact State.finish_error s _
  · exact State.finish_ok s _

/-! ### The conditions of JZ and JN (R22) -/

@[simp] theorem State.acIsZero_iff (s : State) : s.acIsZero = true ↔ s.ac.toInt = 0 := decide_eq_true_iff

@[simp] theorem State.acIsNegative_iff (s : State) : s.acIsNegative = true ↔ s.ac.toInt < 0 :=
  decide_eq_true_iff

/-! ### One equation per case of each jump -/

theorem exec_jmp (addr : Bits12) (s : State) : exec (.jmp addr) s = s.finish (setPc addr.toNat s) := rfl

theorem exec_jz (addr : Bits12) (s : State) :
    exec (.jz addr) s = s.finish (if s.acIsZero then setPc addr.toNat s else .ok s) := rfl

theorem exec_jn (addr : Bits12) (s : State) :
    exec (.jn addr) s = s.finish (if s.acIsNegative then setPc addr.toNat s else .ok s) := rfl

theorem exec_jz_taken {s : State} (h : s.ac.toInt = 0) (addr : Bits12) :
    exec (.jz addr) s = s.finish (setPc addr.toNat s) := by
  rw [exec_jz, if_pos (s.acIsZero_iff.mpr h)]

theorem exec_jz_not_taken {s : State} (h : s.ac.toInt ≠ 0) (addr : Bits12) :
    exec (.jz addr) s = .next s := by
  rw [exec_jz, if_neg (mt s.acIsZero_iff.mp h), State.finish_ok]

theorem exec_jn_taken {s : State} (h : s.ac.toInt < 0) (addr : Bits12) :
    exec (.jn addr) s = s.finish (setPc addr.toNat s) := by
  rw [exec_jn, if_pos (s.acIsNegative_iff.mpr h)]

theorem exec_jn_not_taken {s : State} (h : 0 ≤ s.ac.toInt) (addr : Bits12) :
    exec (.jn addr) s = .next s := by
  rw [exec_jn, if_neg (mt s.acIsNegative_iff.mp (Int.not_lt.mpr h)), State.finish_ok]

end Sys2Proof.Machine

namespace Sys2Proof.Proofs

open Sys2Proof.Machine

/-- Settles O10: JMP is the checked PC write. -/
theorem jmpResult : Obligations.JmpResult := by
  intro addr s
  exact ⟨encode_toNat_of_opcode 0 rfl, (exec_jmp addr s).trans (finish_setPc _ s)⟩

/-- Settles O11, by whether the branch is taken: only then is the target's parity looked at. -/
theorem jzResult : Obligations.JzResult := by
  intro addr s
  refine ⟨encode_toNat_of_opcode 1 rfl, ?_⟩
  by_cases hzero : s.ac.toInt = 0
  · rw [if_neg (not_not.mpr hzero)]
    exact (exec_jz_taken hzero addr).trans (finish_setPc _ s)
  · rw [if_pos hzero]
    exact exec_jz_not_taken hzero addr

/-- Settles O12, by whether the branch is taken; AC = 0 is among the cases where it is not. -/
theorem jnResult : Obligations.JnResult := by
  intro addr s
  refine ⟨encode_toNat_of_opcode 2 rfl, ?_⟩
  by_cases hnonneg : 0 ≤ s.ac.toInt
  · rw [if_pos hnonneg]
    exact exec_jn_not_taken hnonneg addr
  · rw [if_neg hnonneg]
    exact (exec_jn_taken (Int.not_le.mp hnonneg) addr).trans (finish_setPc _ s)

end Sys2Proof.Proofs
end

section
/-! PROOFS. Family 42_accumulator.md: the data operand (R76, R80) and LV, ADD, SUB, MUL, DIV, LD and MM
(R81 to R87). All but LV access the word at their operand, and fail the range check at 4095 and nowhere
else. -/

namespace Sys2Proof.Machine

open Sys2Proof.Claims

/-! ### The data operand (R76) -/

/-- Of the 12-bit addresses only 4095 has no second byte inside memory. -/
theorem word_fits_of_ne_4095 {addr : Bits12} (h : addr ≠ 4095) : addr.toNat + 2 ≤ 4096 := by
  have hlt := addr.isLt
  have hne : addr.toNat ≠ 4095 := fun heq => h (BitVec.eq_of_toNat_eq heq)
  omega

theorem opnd_4095 (s : State) : opnd s (addressOf 4095) = .error (.outOfRange 4096) := opnd_eq s 4095

theorem opnd_of_ne_4095 {addr : Bits12} (h : addr ≠ 4095) (s : State) :
    opnd s (addressOf addr) = .ok (dataOperand s addr.toNat) := by
  rw [addressOf, opnd_eq, if_pos (word_fits_of_ne_4095 h), sext12_wordAt]
  rfl

@[simp] theorem sext12_dataOperand (s : State) (a : Nat) : sext12 (dataOperand s a) = dataOperand s a :=
  sext12_sext12 _

/-! ### AC written from the data operand (R77) -/

/-- A write to AC, as the statements put it: a 12-bit pattern whose value is the sign extension. -/
theorem next_setAc (s : State) (x : Int) :
    ∃ v : Bits12, v.toInt = sext12 x ∧
      (.next (s.setAc x) : Host.Outcome State Fault Refusal) = .next { s with ac := v } :=
  ⟨BitVec.ofInt 12 x, toInt_ofInt12 x, rfl⟩

theorem finish_aluOp_4095 (f : Int → Int → Int) (s : State) :
    s.finish (aluOp f (addressOf 4095) s) = .next (faultedWith s (.outOfRange 4096)) := by
  have hfault : aluOp f (addressOf 4095) s = .error (.outOfRange 4096) := aluOp_eq f 4095 s
  rw [hfault]
  exact State.finish_error s _

theorem finish_aluOp_of_ne_4095 (f : Int → Int → Int) {addr : Bits12} (h : addr ≠ 4095) (s : State) :
    s.finish (aluOp f (addressOf addr) s) = .next (s.setAc (f s.ac.toInt (dataOperand s addr.toNat))) := by
  rw [addressOf, aluOp_eq, if_pos (word_fits_of_ne_4095 h), sext12_wordAt]
  exact State.finish_ok s _

/-- All that an instruction which combines AC with its data operand can do, for any function of the two. -/
theorem finish_aluOp (f : Int → Int → Int) (addr : Bits12) (s : State) :
    if addr = 4095 then s.finish (aluOp f (addressOf addr) s) = .next (faultedWith s (.outOfRange 4096))
    else ∃ v : Bits12, v.toInt = sext12 (f s.ac.toInt (dataOperand s addr.toNat)) ∧
      s.finish (aluOp f (addressOf addr) s) = .next { s with ac := v } := by
  split
  · next haddr => rw [haddr, finish_aluOp_4095]
  · next haddr => rw [finish_aluOp_of_ne_4095 f haddr]; exact next_setAc s _

/-! ### One equation per case of each instruction -/

theorem exec_lv (val : Bits12) (s : State) : exec (.lv val) s = .next (s.setAc (sext12 val.toNat)) := rfl

theorem exec_add (addr : Bits12) (s : State) :
    exec (.add addr) s = s.finish (aluOp (fun ac d => ac + d) (addressOf addr) s) := rfl

theorem exec_sub (addr : Bits12) (s : State) :
    exec (.sub addr) s = s.finish (aluOp (fun ac d => ac - d) (addressOf addr) s) := rfl

theorem exec_mul (addr : Bits12) (s : State) :
    exec (.mul addr) s = s.finish (aluOp (fun ac d => ac * d) (addressOf addr) s) := rfl

theorem exec_ld (addr : Bits12) (s : State) :
    exec (.ld addr) s = s.finish (aluOp (fun _ d => d) (addressOf addr) s) := rfl

theorem exec_div_4095 (s : State) : exec (.div 4095) s = .next (faultedWith s (.outOfRange 4096)) := by
  simp only [exec, execDiv, opnd_4095]
  rfl

/-- DIV once its operand is read: the divisor's test, then the write (decision D11). -/
theorem exec_div_of_ne_4095 {addr : Bits12} (h : addr ≠ 4095) (s : State) :
    exec (.div addr) s = s.finish
      (if dataOperand s addr.toNat = 0 then .error (.divideByZero addr.toNat)
      else .ok (s.setAc (tdiv s.ac.toInt (dataOperand s addr.toNat)))) := by
  simp only [exec, execDiv, opnd_of_ne_4095 h]
  simp only [bind, Except.bind, addressOf, State.acVal]

theorem exec_div_by_zero {addr : Bits12} {s : State} (h : addr ≠ 4095) (hd : dataOperand s addr.toNat = 0) :
    exec (.div addr) s = .next (faultedWith s (.divideByZero addr.toNat)) := by
  rw [exec_div_of_ne_4095 h, if_pos hd]
  exact State.finish_error s _

theorem exec_div_by_nonzero {addr : Bits12} {s : State} (h : addr ≠ 4095)
    (hd : dataOperand s addr.toNat ≠ 0) :
    exec (.div addr) s = .next (s.setAc (Int.tdiv s.ac.toInt (dataOperand s addr.toNat))) := by
  rw [exec_div_of_ne_4095 h, if_neg hd, State.finish_ok, tdiv_eq]

theorem exec_mm_4095 (s : State) : exec (.mm 4095) s = .next (faultedWith s (.outOfRange 4096)) := by
  have hwrite : memWriteWord s.mem (addressOf 4095) (u16 s.acVal) = .error (.outOfRange 4096) :=
    memWriteWord_eq _ 4095 _
  simp only [exec, execMm, hwrite]
  rfl

theorem exec_mm_of_ne_4095 {addr : Bits12} (h : addr ≠ 4095) (s : State) :
    exec (.mm addr) s = .next (s.setMem (s.mem.putWord addr.toNat (u16 s.ac.toInt))) := by
  have hwrite : memWriteWord s.mem (addressOf addr) (u16 s.acVal) =
      .ok (s.mem.putWord addr.toNat (u16 s.ac.toInt)) := by
    rw [memWriteWord_eq, addressOf, if_pos (word_fits_of_ne_4095 h)]
    rfl
  simp only [exec, execMm, hwrite]
  rfl

/-! ### The 16-bit image of AC (R9, R87) -/

theorem u16_firstByte_toNat (x : Int) : ((u16 x).firstByte.toNat : Int) = x % 65536 / 256 := by
  rw [Word.firstByte_toNat, Int.natCast_ediv, u16_toNat]
  rfl

theorem u16_secondByte_toNat (x : Int) : ((u16 x).secondByte.toNat : Int) = x % 65536 % 256 := by
  rw [Word.secondByte_toNat, Int.natCast_emod, u16_toNat]
  rfl

/-! ### Quotients of 12-bit values (R80) -/

/-- A divisor of size 2 or more at least halves the dividend's size. -/
theorem tdiv_natAbs_le_half (a : Int) {b : Int} (hb : 2 ≤ b.natAbs) : (Int.tdiv a b).natAbs ≤ a.natAbs / 2 := by
  rw [Int.natAbs_tdiv]
  exact Nat.div_le_div_left hb (by decide)

/-- Of the quotients of values of AC, only -2048 / -1 is no value of AC. -/
theorem tdiv_mem {a b : Int} (ha : -2048 ≤ a ∧ a ≤ 2047) (hb : b ≠ 0) (h : ¬ (a = -2048 ∧ b = -1)) :
    -2048 ≤ Int.tdiv a b ∧ Int.tdiv a b ≤ 2047 := by
  by_cases hone : b = 1
  · rwa [hone, Int.tdiv_one]
  by_cases hminus : b = -1
  · rw [hminus, Int.tdiv_neg, Int.tdiv_one]
    omega
  · have hhalf := tdiv_natAbs_le_half a (b := b) (by omega)
    omega

theorem sext12_tdiv {a b : Int} (ha : -2048 ≤ a ∧ a ≤ 2047) (hb : b ≠ 0) :
    sext12 (Int.tdiv a b) = if a = -2048 ∧ b = -1 then -2048 else Int.tdiv a b := by
  split
  · next hwrap =>
    obtain ⟨rfl, rfl⟩ := hwrap
    decide
  · next hfits => exact sext12_of_mem (tdiv_mem ha hb hfits)

end Sys2Proof.Machine

namespace Sys2Proof.Proofs

open Sys2Proof.Machine Sys2Proof.Claims

/-- Settles O9. -/
theorem dataOperandReads : Obligations.DataOperandReads := by
  intro s addr
  split
  · next haddr => rw [haddr, opnd_4095]
  · next haddr => exact opnd_of_ne_4095 haddr s

/-- Settles O13: the immediate's sign extension is AC's new value, with nothing to read. -/
theorem lvResult : Obligations.LvResult := by
  intro val s
  obtain ⟨v, hv, hnext⟩ := next_setAc s (sext12 val.toNat)
  exact ⟨encode_toNat_of_opcode 3 rfl, v, hv.trans (sext12_sext12 _), (exec_lv val s).trans hnext⟩

/-- Settles O14: ADD is the shared operation at the sum. -/
theorem addResult : Obligations.AddResult := by
  intro addr s
  rw [exec_add]
  exact ⟨encode_toNat_of_opcode 4 rfl, finish_aluOp _ addr s⟩

/-- Settles O15: SUB is the shared operation at the difference. -/
theorem subResult : Obligations.SubResult := by
  intro addr s
  rw [exec_sub]
  exact ⟨encode_toNat_of_opcode 5 rfl, finish_aluOp _ addr s⟩

/-- Settles O16: MUL is the shared operation at the product. -/
theorem mulResult : Obligations.MulResult := by
  intro addr s
  rw [exec_mul]
  exact ⟨encode_toNat_of_opcode 6 rfl, finish_aluOp _ addr s⟩

/-- Settles O17, in the order of the checks (decision D11): the range, the divisor, the quotient. The
divisor's case split is by `ite_prop_iff_and`, since `split` would evaluate the open term `dataOperand`. -/
theorem divResult : Obligations.DivResult := by
  intro addr s
  refine ⟨encode_toNat_of_opcode 7 rfl, ?_⟩
  split
  · next haddr => rw [haddr, exec_div_4095]
  · next haddr =>
    rw [ite_prop_iff_and]
    refine ⟨exec_div_by_zero haddr, fun hnonzero => ?_⟩
    rw [exec_div_by_nonzero haddr hnonzero]
    exact next_setAc s _

/-- Settles O18: LD is the shared operation that drops AC; a data operand is a value of AC already, so
the write to AC keeps it exactly. -/
theorem ldResult : Obligations.LdResult := by
  intro addr s
  refine ⟨encode_toNat_of_opcode 8 rfl, ?_⟩
  have hld := finish_aluOp (fun _ d => d) addr s
  simp only [sext12_dataOperand] at hld
  rw [exec_ld]
  exact hld

/-- Settles O19: inside memory MM is one word store, whose bytes and frame are those of a word store. -/
theorem mmResult : Obligations.MmResult := by
  intro addr s hmem
  refine ⟨encode_toNat_of_opcode 9 rfl, ?_⟩
  split
  · next haddr => rw [haddr, exec_mm_4095]
  · next haddr =>
    have hfits := word_fits_of_ne_4095 haddr
    have hread := Memory.read_putWord hmem hfits (u16 s.ac.toInt)
    refine ⟨_, exec_mm_of_ne_4095 haddr s, Memory.wf_putWord hmem hfits _, ?_, ?_, ?_⟩
    · rw [hread, if_pos rfl, u16_firstByte_toNat]
    · rw [hread, if_neg (Nat.succ_ne_self _), if_pos rfl, u16_secondByte_toNat]
    · intro x hfirst hsecond
      rw [hread, if_neg hfirst, if_neg hsecond]

/-- Settles O30: the quotient is a value of AC, which the write to AC keeps exactly, but for the one
pair that wraps. -/
theorem divWrapsOnlyAtMinusOne : Obligations.DivWrapsOnlyAtMinusOne := by
  intro addr s haddr
  rw [ite_prop_iff_and]
  refine ⟨exec_div_by_zero haddr, fun hnonzero => ⟨_, exec_div_by_nonzero haddr hnonzero, ?_⟩⟩
  rw [State.setAc_ac, toInt_ofInt12, sext12_tdiv (toInt_mem s.ac) hnonzero]

end Sys2Proof.Proofs
end

section
/-! PROOFS. Family 43_subroutine.md: SC and RS (R88, R89). Both access the two bytes of the return slot, so
both fail the range check at 4095 and nowhere else, and both end in the checked PC write. -/

namespace Sys2Proof.Machine

open Sys2Proof.Claims

/-! ### Accesses to the return slot (R88, R89) -/

theorem checkRange_4095 : checkRange (addressOf 4095) 2 = .error (.outOfRange 4096) := rfl

theorem checkRange_of_ne_4095 {addr : Bits12} (h : addr ≠ 4095) : checkRange addr.toNat 2 = .ok () := by
  rw [checkRange_eq, if_pos (word_fits_of_ne_4095 h)]

theorem memReadByte_within {a : Nat} (h : a < 4096) (m : Memory) : memReadByte m a = .ok (m.read a) := by
  rw [memReadByte_eq, if_pos (Nat.succ_le_of_lt h)]

theorem memWriteByte_within {a : Nat} (h : a < 4096) (m : Memory) (b : Byte) :
    memWriteByte m a b = .ok (m.write a b) := by
  rw [memWriteByte_eq, if_pos (Nat.succ_le_of_lt h)]

/-! ### SC: the return address in the slot (R88, decision D12) -/

/-- PC has 13 bits, so a word holds all of it. -/
theorem toNat_setWidth_pc (pc : PcBits) : (pc.setWidth 16).toNat = pc.toNat :=
  BitVec.toNat_setWidth_of_le (by decide)

/-- SC's two byte stores are one big-endian word store of the return address. -/
theorem write_pcBytes_eq_putWord (m : Memory) (a : Nat) (pc : PcBits) :
    (m.write a (BitVec.ofNat 8 (pc.toNat / 256))).write (a + 1) (BitVec.ofNat 8 (pc.toNat % 256)) =
      m.putWord a (pc.setWidth 16) := by
  have hlow : BitVec.ofNat 8 (pc.toNat % 256) = BitVec.ofNat 8 pc.toNat :=
    BitVec.eq_of_toNat_eq (by simp only [BitVec.toNat_ofNat]; omega)
  rw [hlow, Memory.putWord, Word.firstByte, Word.secondByte, toNat_setWidth_pc]

/-! ### One equation per case of each instruction -/

theorem exec_sc_4095 (s : State) : exec (.sc 4095) s = .next (faultedWith s (.outOfRange 4096)) := by
  simp only [exec, execSc, checkRange_4095]
  rfl

/-- The parity check comes before both stores (decision D10). -/
theorem exec_sc_of_odd {addr : Bits12} (h : addr ≠ 4095) (hodd : addr.toNat % 2 = 1) (s : State) :
    exec (.sc addr) s = .next (faultedWith s (.invalidAddress (addr.toNat + 2))) := by
  have hparity : checkParity (addr.toNat + 2) = .error (.invalidAddress (addr.toNat + 2)) := by
    rw [checkParity_eq, Nat.add_mod_right, if_pos hodd]
  simp only [exec, execSc, addressOf, checkRange_of_ne_4095 h, hparity]
  rfl

/-- With both checks passed nothing else fails: the stores are inside memory, and the final PC write repeats
the parity check. -/
theorem exec_sc_of_even {addr : Bits12} (h : addr ≠ 4095) (heven : addr.toNat % 2 ≠ 1) (s : State) :
    exec (.sc addr) s =
      .next ((s.setMem (s.mem.putWord addr.toNat (s.pc.setWidth 16))).putPc (addr.toNat + 2)) := by
  have hfirst := memWriteByte_within addr.isLt
  have hsecond := memWriteByte_within (word_fits_of_ne_4095 h)
  have hparity : checkParity (addr.toNat + 2) = .ok () := by
    rw [checkParity_eq, Nat.add_mod_right, if_neg heven]
  simp only [exec, execSc, addressOf, checkRange_of_ne_4095 h, hparity, hfirst, hsecond, setPc, bind,
    Except.bind, write_pcBytes_eq_putWord]
  rfl

theorem exec_rs_4095 (s : State) : exec (.rs 4095) s = .next (faultedWith s (.outOfRange 4096)) := by
  simp only [exec, execRs, checkRange_4095]
  rfl

/-- RS once its slot is read: the high byte's test, then the checked PC write (decision D11). -/
theorem exec_rs_of_ne_4095 {addr : Bits12} (h : addr ≠ 4095) (s : State) :
    exec (.rs addr) s = s.finish
      (if (s.mem.read addr.toNat).toNat > 0xF then .error (.overflow addr.toNat)
      else setPc (memWord s.mem addr.toNat) s) := by
  have hhi := memReadByte_within addr.isLt
  have hlo := memReadByte_within (word_fits_of_ne_4095 h)
  simp only [exec, execRs, addressOf, checkRange_of_ne_4095 h, hhi, hlo]
  rfl

end Sys2Proof.Machine

namespace Sys2Proof.Proofs

open Sys2Proof.Machine Sys2Proof.Claims

/-- Settles O20, in the order of the checks: the range, the target's parity, and then one word store, whose
bytes and frame are those of a word store. -/
theorem scResult : Obligations.ScResult := by
  intro addr s hmem
  refine ⟨encode_toNat_of_opcode 10 rfl, ?_⟩
  split
  · next haddr => rw [haddr, exec_sc_4095]
  · next haddr =>
    split
    · next hodd => exact exec_sc_of_odd haddr hodd s
    · next heven =>
      have hfits := word_fits_of_ne_4095 haddr
      have hread := Memory.read_putWord hmem hfits (s.pc.setWidth 16)
      refine ⟨s.mem.putWord addr.toNat (s.pc.setWidth 16), exec_sc_of_even haddr heven s,
        Memory.wf_putWord hmem hfits _, ?_, ?_, ?_⟩
      · rw [hread, if_pos rfl, Word.firstByte_toNat, toNat_setWidth_pc]
      · rw [hread, if_neg (Nat.succ_ne_self _), if_pos rfl, Word.secondByte_toNat, toNat_setWidth_pc]
      · intro x hfirst hsecond
        rw [hread, if_neg hfirst, if_neg hsecond]

/-- Settles O21, in the order of the checks: the range, the slot's high byte, and the checked PC write. -/
theorem rsResult : Obligations.RsResult := by
  intro addr s
  refine ⟨encode_toNat_of_opcode 11 rfl, ?_⟩
  split
  · next haddr => rw [haddr, exec_rs_4095]
  · next haddr =>
    rw [exec_rs_of_ne_4095 haddr]
    split
    · exact State.finish_error s _
    · exact finish_setPc _ s

end Sys2Proof.Proofs
end

section
/-! PROOFS. Family 44_system_io.md: PD and OS (R93, R94). Neither touches memory or PC; OS has a meaning
for service 0 only. -/

namespace Sys2Proof.Machine

open Sys2Proof.Claims

/-! ### One equation per case of each instruction -/

theorem exec_pd (x : Bits12) (s : State) : exec (.pd x) s = .next (s.emit s.ac.toInt) := rfl

theorem exec_os (n : Bits12) (s : State) :
    exec (.os n) s = s.finish
      (if n.toNat = 0 then .ok (s.setRun .terminated) else .error (.unimplemented n.toNat)) := rfl

theorem exec_os_zero (s : State) : exec (.os 0) s = .next (s.setRun .terminated) := by
  have hservice : (0 : Bits12).toNat = 0 := rfl
  rw [exec_os, if_pos hservice, State.finish_ok]

/-- OS fails for every other service, since the operand's value is 0 only for the pattern 0. -/
theorem exec_os_of_ne_zero {n : Bits12} (h : n ≠ 0) (s : State) :
    exec (.os n) s = .next (faultedWith s (.unimplemented n.toNat)) := by
  have hservice : n.toNat ≠ 0 := fun heq => h (BitVec.eq_of_toNat_eq heq)
  rw [exec_os, if_neg hservice]
  exact State.finish_error s _

end Sys2Proof.Machine

namespace Sys2Proof.Proofs

open Sys2Proof.Machine Sys2Proof.Claims

/-- Settles O26: PD is one emission of AC's signed value. -/
theorem pdResult : Obligations.PdResult := by
  intro x s
  exact ⟨encode_toNat_of_opcode 14 rfl, exec_pd x s⟩

/-- Settles O27, by whether the service is 0. -/
theorem osResult : Obligations.OsResult := by
  intro n s
  refine ⟨encode_toNat_of_opcode 15 rfl, ?_⟩
  split
  · next hzero => rw [hzero]; exact exec_os_zero s
  · next hnonzero => exact exec_os_of_ne_zero hnonzero s

end Sys2Proof.Proofs
end

section
/-! PROOFS. Family 45_assembler.md: re-declaration (R109). Pass 1 raises NameConflict in `declare` alone,
and `declare` is reached by the lines that declare a name alone. -/

namespace Sys2Proof.Machine

open Sys2Proof.Claims

/-! ### Failure of a sequence of steps -/

/-- A sequence fails where its first step fails, or where the rest fails on that step's result. -/
theorem except_bind_eq_error_iff {ε α β : Type} {x : Except ε α} {f : α → Except ε β} {e : ε} :
    x >>= f = .error e ↔ x = .error e ∨ ∃ a, x = .ok a ∧ f a = .error e := by
  cases x <;> simp [bind, Except.bind]

/-! ### The symbol table (R107, R109) -/

theorem SymTab.find_eq_none_iff (symtab : SymTab) (name : Text) :
    symtab.find name = none ↔ name ∉ symtab.map Prod.fst := by
  induction symtab with
  | nil => simp [SymTab.find]
  | cons entry rest ih =>
    obtain ⟨n, a⟩ := entry
    by_cases hn : n = name
    · simp [SymTab.find, hn]
    · simp [SymTab.find, hn, ih, Ne.symm hn]

/-- R109: `declare` fails for a name in the table, with NameConflict, and for nothing else. -/
theorem declare_eq_error_iff {p : Pass1} {name : Text} {addr line : Nat} {e : AsmError} :
    declare p name addr line = .error e ↔
      name ∈ p.symtab.map Prod.fst ∧ e = .nameConflict line name := by
  have hfind := SymTab.find_eq_none_iff p.symtab name
  unfold declare
  split
  · next hsome =>
    have hmem : name ∈ p.symtab.map Prod.fst := by simpa [hsome] using hfind
    simp [hmem, eq_comm]
  · next hnone => simp [hfind.mp hnone]

/-! ### Names (R100) -/

theorem mnemonicOpcode_of_isName {sh : Shorthand} {t : Text} (h : isName sh t = true) :
    mnemonicOpcode sh t = none := by
  have hreserved : isReserved sh t = false := by simpa using (Bool.and_eq_true_iff.mp h).2
  simpa using (Bool.or_eq_false_iff.mp hreserved).1

/-- A name begins with a letter or `_`, so it is neither of the tokens `@` and `#`. -/
theorem isName_ne_mark {sh : Shorthand} {t : Text} (h : isName sh t = true) : t ≠ ['@'] ∧ t ≠ ['#'] := by
  have hform : hasNameForm t = true := (Bool.and_eq_true_iff.mp h).1
  constructor
  · rintro rfl
    exact absurd hform (by decide)
  · rintro rfl
    exact absurd hform (by decide)

/-! ### The class of a line that declares a name (R101) -/

theorem classify_of_isName {sh : Shorthand} {t : Text} (h : isName sh t = true) (line : Nat)
    (args : List Text) : classify sh line (t :: args) = classifyRest sh line t args := by
  obtain ⟨hat, hhash⟩ := isName_ne_mark h
  simp only [classify, if_neg hat, if_neg hhash]

theorem classify_label {sh : Shorthand} {name : Text} (h : isName sh name = true) (line : Nat) :
    classify sh line [name] = .ok (.label name) := by
  simp [classify_of_isName h, classifyRest, mnemonicOpcode_of_isName h, h]

theorem classify_constant {sh : Shorthand} {name k : Text} (h : isName sh name = true) (hk : isK k = true)
    (line : Nat) (arg : Text) : classify sh line [name, k, arg] = .ok (.constant name arg) := by
  simp [classify_of_isName h, classifyRest, hk]

/-- What the answer of `classify` says of the tokens: the one error it raises, and the tokens of the two
classes that declare a name. -/
def ClassSays (sh : Shorthand) (line : Nat) (ts : List Text) : Except AsmError Line → Prop
  | .error e => ∃ t, e = .parseFault line t
  | .ok (.label name) => ts = [name] ∧ isName sh name = true
  | .ok (.constant name arg) => ∃ k, isK k = true ∧ ts = [name, k, arg]
  | .ok _ => True

theorem classSays_classifyRest (sh : Shorthand) (line : Nat) (t : Text) (args : List Text) :
    ClassSays sh line (t :: args) (classifyRest sh line t args) := by
  unfold classifyRest
  split
  · split
    · split
      · trivial
      · exact ⟨t, rfl⟩
    · split
      · next hname => exact ⟨rfl, hname⟩
      · exact ⟨t, rfl⟩
  · split
    · trivial
    · exact ⟨t, rfl⟩
  · next k arg =>
    split
    · next hk => exact ⟨k, hk, rfl⟩
    · exact ⟨t, rfl⟩
  · exact ⟨t, rfl⟩

/-- The rows of `@` and `#` answer no class that declares a name. -/
theorem classSays_classify (sh : Shorthand) (line : Nat) (ts : List Text) :
    ClassSays sh line ts (classify sh line ts) := by
  unfold classify
  split
  · trivial
  · next t args =>
    split
    · split
      · trivial
      · exact ⟨t, rfl⟩
    · split
      · split
        · trivial
        · trivial
        · exact ⟨t, rfl⟩
      · exact classSays_classifyRest sh line t args

/-! ### What never raises NameConflict (R99, R100, R102, R106, R110) -/

theorem parseArg_ne_nameConflict (sh : Shorthand) (line : Nat) (t : Text) (i : Nat) (n : Text) :
    parseArg sh line t ≠ .error (.nameConflict i n) := by
  fun_cases parseArg sh line t <;> simp

theorem parseName_eq_ok_iff {sh : Shorthand} {line : Nat} {t name : Text} :
    parseName sh line t = .ok name ↔ t = name ∧ isName sh name = true := by
  constructor
  · intro h
    unfold parseName at h
    split at h
    · next hname =>
      cases h
      exact ⟨rfl, hname⟩
    · cases h
  · rintro ⟨rfl, hname⟩
    exact if_pos hname

theorem parseName_ne_nameConflict (sh : Shorthand) (line : Nat) (t : Text) (i : Nat) (n : Text) :
    parseName sh line t ≠ .error (.nameConflict i n) := by
  fun_cases parseName sh line t <;> simp

theorem statementArg_ne_nameConflict (sh : Shorthand) (line : Nat) (t : Option Text) (i : Nat) (n : Text) :
    statementArg sh line t ≠ .error (.nameConflict i n) := by
  cases t with
  | none => simp [statementArg]
  | some t => exact parseArg_ne_nameConflict sh line t i n

theorem endName_ne_nameConflict (sh : Shorthand) (line : Nat) (t : Option Text) (i : Nat) (n : Text) :
    endName sh line t ≠ .error (.nameConflict i n) := by
  fun_cases endName sh line t <;> simp

theorem reserve_ne_nameConflict (p : Pass1) (kind : WordKind) (arg : Arg) (line i : Nat) (n : Text) :
    reserve p kind arg line ≠ .error (.nameConflict i n) := by
  fun_cases reserve p kind arg line <;> simp

/-! ### Lines that declare a name (R103, R105, R108) -/

theorem scanLine_label {sh : Shorthand} {name : Text} (h : isName sh name = true) (line : Nat) (p : Pass1) :
    scanLine sh line [name] p = do
      let q ← declare p name (p.origin + p.length) line
      return .going q := by
  simp only [scanLine, classify_label h]
  rfl

theorem scanLine_constant {sh : Shorthand} {name k : Text} (h : isName sh name = true) (hk : isK k = true)
    (line : Nat) (arg : Text) (p : Pass1) :
    scanLine sh line [name, k, arg] p = do
      let a ← parseArg sh line arg
      let q ← declare p name (p.origin + p.length) line
      let q ← reserve q .const a line
      return .going q := by
  have hparse : parseName sh line name = .ok name := parseName_eq_ok_iff.mpr ⟨rfl, h⟩
  simp only [scanLine, classify_constant h hk, bind, Except.bind, hparse]

/-- R109 at one line: a declaration of a name in the table fails, and with NameConflict once the argument of
the line, if it has one, is read. -/
theorem scanLine_error_of_redeclares {sh : Shorthand} {ts : List Text} {name : Text} {p : Pass1}
    (hname : isName sh name = true) (hdecl : declares ts name) (hmem : name ∈ p.symtab.map Prod.fst)
    (line : Nat) :
    ∃ e, scanLine sh line ts p = .error e ∧ (argReads sh line ts → e = .nameConflict line name) := by
  have hconflict : declare p name (p.origin + p.length) line = .error (.nameConflict line name) :=
    declare_eq_error_iff.mpr ⟨hmem, rfl⟩
  rcases hdecl with rfl | ⟨k, arg, hk, rfl⟩
  case inl =>
    refine ⟨_, ?_, fun _ => rfl⟩
    rw [scanLine_label hname, hconflict]
    rfl
  case inr =>
    rw [scanLine_constant hname hk, hconflict]
    cases harg : parseArg sh line arg with
    | ok a => exact ⟨_, rfl, fun _ => rfl⟩
    | error e =>
      refine ⟨e, rfl, fun hreads => ?_⟩
      obtain ⟨a, ha⟩ := hreads name k arg rfl
      cases harg.symm.trans ha

/-- The converse of R109 at one line: of a line's steps `declare` alone raises NameConflict, and it runs for
a label and for a constant alone. -/
theorem redeclares_of_scanLine_nameConflict {sh : Shorthand} {line : Nat} {ts : List Text} {p : Pass1}
    {i : Nat} {name : Text}
    (h : scanLine sh line ts p = .error (.nameConflict i name)) :
    i = line ∧ isName sh name = true ∧ declares ts name ∧ name ∈ p.symtab.map Prod.fst := by
  rw [scanLine, except_bind_eq_error_iff] at h
  have hsays := classSays_classify sh line ts
  obtain hclass | ⟨c, hclass, h⟩ := h
  · rw [hclass] at hsays
    obtain ⟨t, hfault⟩ := hsays
    cases hfault
  rw [hclass] at hsays
  cases c with
  | ignored => cases h
  | origin arg => cases h
  | label n =>
    obtain ⟨rfl, hname⟩ := hsays
    obtain hdeclare | ⟨_, _, hend⟩ := except_bind_eq_error_iff.mp h
    · obtain ⟨hmem, herror⟩ := declare_eq_error_iff.mp hdeclare
      cases herror
      exact ⟨rfl, hname, .inl rfl, hmem⟩
    · cases hend
  | constant n arg =>
    obtain ⟨k, hk, rfl⟩ := hsays
    obtain hparse | ⟨m, hparse, h⟩ := except_bind_eq_error_iff.mp h
    · exact absurd hparse (parseName_ne_nameConflict sh line n i name)
    obtain ⟨rfl, hname⟩ := parseName_eq_ok_iff.mp hparse
    obtain harg | ⟨a, _, h⟩ := except_bind_eq_error_iff.mp h
    · exact absurd harg (parseArg_ne_nameConflict sh line arg i name)
    obtain hdeclare | ⟨q, _, h⟩ := except_bind_eq_error_iff.mp h
    · obtain ⟨hmem, herror⟩ := declare_eq_error_iff.mp hdeclare
      cases herror
      exact ⟨rfl, hname, .inr ⟨k, arg, hk, rfl⟩, hmem⟩
    obtain hreserve | ⟨_, _, hend⟩ := except_bind_eq_error_iff.mp h
    · exact absurd hreserve (reserve_ne_nameConflict q .const a line i name)
    · cases hend
  | statement op arg =>
    obtain harg | ⟨a, _, h⟩ := except_bind_eq_error_iff.mp h
    · exact absurd harg (statementArg_ne_nameConflict sh line arg i name)
    obtain hreserve | ⟨_, _, hend⟩ := except_bind_eq_error_iff.mp h
    · exact absurd hreserve (reserve_ne_nameConflict p (.instr op) a line i name)
    · cases hend
  | endMark n =>
    obtain hend | ⟨_, _, hend⟩ := except_bind_eq_error_iff.mp h
    · exact absurd hend (endName_ne_nameConflict sh line n i name)
    · cases hend

/-! ### An error ends the scan, and the assembly (R95, R108) -/

theorem scan_of_scanLine_error {sh : Shorthand} {l : Text} {line : Nat} {p : Pass1} {e : AsmError}
    (h : scanLine sh line (tokens (stripComment l)) p = .error e) (ls : List Text) :
    scan sh (l :: ls) line (.going p) = .error e := by
  simp only [scan, h]

theorem assemble_of_pass1_error {sh : Shorthand} {source : Text} {e : AsmError}
    (h : pass1 sh source = .error e) : assemble sh source = .error e :=
  except_bind_eq_error_iff.mpr (.inl h)

end Sys2Proof.Machine

namespace Sys2Proof.Proofs

open Sys2Proof.Machine

/-- Settles O56: the line's error by what `declare` does, and its way out of the scan and of pass 1. -/
theorem redeclarationFailsNameConflict : Obligations.RedeclarationFailsNameConflict := by
  refine ⟨?redeclares, ?converse, fun sh source e => assemble_of_pass1_error⟩
  case redeclares =>
    intro sh l ls line p name hname hdecl hmem
    obtain ⟨e, herror, hkind⟩ := scanLine_error_of_redeclares hname hdecl hmem line
    exact ⟨e, scan_of_scanLine_error herror ls, hkind⟩
  case converse => exact fun sh line ts p i name => redeclares_of_scanLine_nameConflict

end Sys2Proof.Proofs
end

section
/-! PROOFS. Family 60_exceptions.md: fault entry (R126). An instruction writes nothing before it raises, so
the state a fault is entered from is the fetched state itself, but for a string that GD has taken (log 4). -/

namespace Sys2Proof.Machine

open Sys2Proof.Claims

/-! ### How an instruction and a step end -/

def State.NotFaulted (s : State) : Prop := ∀ e pc ac, s.run ≠ .faulted e pc ac

/-- The three ends of an instruction, or of a step, that would enter its faults from `s`: with no fault, by
fault entry on `s` (R126), and with no step at all in a run that has ended (R71). -/
inductive PreciseEnd (s : State) : Host.Outcome State Fault Refusal → Prop where
  | completed {t : State} (h : t.NotFaulted) : PreciseEnd s (.next t)
  | raised (rest : List Text) (e : CpuError) : PreciseEnd s (.next ((s.setInput rest).raise e))
  | noStep (r : Fault) : PreciseEnd s (.fault r)

theorem preciseEnd_faultedWith (s : State) (e : CpuError) : PreciseEnd s (.next (faultedWith s e)) :=
  .raised s.input e

/-- A string taken from the input channel is the host's, and no write of the instruction. -/
theorem preciseEnd_of_setInput {s : State} {rest : List Text} {o : Host.Outcome State Fault Refusal}
    (h : PreciseEnd (s.setInput rest) o) : PreciseEnd s o := by
  cases h with
  | completed h => exact .completed h
  | raised rest' e => exact .raised rest' e
  | noStep r => exact .noStep r

/-! ### The ends of each instruction -/

theorem preciseEnd_os (s : State) (n : Bits12) : PreciseEnd s (exec (.os n) s) := by
  by_cases hservice : n = 0
  · rw [hservice, exec_os_zero]
    exact .completed nofun
  · rw [exec_os_of_ne_zero hservice]
    exact preciseEnd_faultedWith s _

section
variable {s : State} (hs : s.NotFaulted)
include hs

theorem State.NotFaulted.of_run_eq {t : State} (h : t.run = s.run) : t.NotFaulted := by
  intro e pc ac
  rw [h]
  exact hs e pc ac

theorem preciseEnd_finish_setPc (v : Nat) : PreciseEnd s (s.finish (setPc v s)) := by
  rw [finish_setPc]
  split
  · exact preciseEnd_faultedWith s _
  · exact .completed hs

theorem preciseEnd_finish_aluOp (f : Int → Int → Int) (addr : Bits12) :
    PreciseEnd s (s.finish (aluOp f (addressOf addr) s)) := by
  by_cases haddr : addr = 4095
  · rw [haddr, finish_aluOp_4095]
    exact preciseEnd_faultedWith s _
  · rw [finish_aluOp_of_ne_4095 f haddr]
    exact .completed (hs.of_run_eq (s.setAc_run _))

theorem preciseEnd_jz (addr : Bits12) : PreciseEnd s (exec (.jz addr) s) := by
  by_cases htaken : s.ac.toInt = 0
  · rw [exec_jz_taken htaken]
    exact preciseEnd_finish_setPc hs _
  · rw [exec_jz_not_taken htaken]
    exact .completed hs

theorem preciseEnd_jn (addr : Bits12) : PreciseEnd s (exec (.jn addr) s) := by
  by_cases htaken : s.ac.toInt < 0
  · rw [exec_jn_taken htaken]
    exact preciseEnd_finish_setPc hs _
  · rw [exec_jn_not_taken (Int.not_lt.mp htaken)]
    exact .completed hs

theorem preciseEnd_div (addr : Bits12) : PreciseEnd s (exec (.div addr) s) := by
  by_cases haddr : addr = 4095
  · rw [haddr, exec_div_4095]
    exact preciseEnd_faultedWith s _
  by_cases hzero : dataOperand s addr.toNat = 0
  · rw [exec_div_by_zero haddr hzero]
    exact preciseEnd_faultedWith s _
  · rw [exec_div_by_nonzero haddr hzero]
    exact .completed (hs.of_run_eq (s.setAc_run _))

theorem preciseEnd_mm (addr : Bits12) : PreciseEnd s (exec (.mm addr) s) := by
  by_cases haddr : addr = 4095
  · rw [haddr, exec_mm_4095]
    exact preciseEnd_faultedWith s _
  · rw [exec_mm_of_ne_4095 haddr]
    exact .completed (hs.of_run_eq (s.setMem_run _))

/-- SC checks its target before it stores, so its fault keeps memory (decision D10). -/
theorem preciseEnd_sc (addr : Bits12) : PreciseEnd s (exec (.sc addr) s) := by
  by_cases haddr : addr = 4095
  · rw [haddr, exec_sc_4095]
    exact preciseEnd_faultedWith s _
  by_cases hodd : addr.toNat % 2 = 1
  · rw [exec_sc_of_odd haddr hodd]
    exact preciseEnd_faultedWith s _
  · rw [exec_sc_of_even haddr hodd]
    exact .completed (hs.of_run_eq (by rw [State.putPc_run, State.setMem_run]))

theorem preciseEnd_rs (addr : Bits12) : PreciseEnd s (exec (.rs addr) s) := by
  by_cases haddr : addr = 4095
  · rw [haddr, exec_rs_4095]
    exact preciseEnd_faultedWith s _
  rw [exec_rs_of_ne_4095 haddr]
  by_cases hhigh : (s.mem.read addr.toNat).toNat > 0xF
  · rw [if_pos hhigh]
    exact preciseEnd_faultedWith s _
  · rw [if_neg hhigh]
    exact preciseEnd_finish_setPc hs _

theorem preciseEnd_finish_takeInput (v : Nat) : PreciseEnd s (s.finish (takeInput v s)) := by
  cases hmode : s.gdMode with
  | ac =>
    rw [takeInput_ac hmode, State.finish_ok]
    exact .completed (hs.of_run_eq (s.setAc_run _))
  | pc =>
    rw [takeInput_pc hmode]
    exact preciseEnd_finish_setPc hs v

/-- GD raises in the PC mode alone, with its string taken (log 4); its wait is no fault (log 6). -/
theorem preciseEnd_gd (x : Bits12) : PreciseEnd s (exec (.gd x) s) := by
  simp only [exec, execGd]
  split
  · next v rest _ =>
    have htaken : (s.setInput rest).NotFaulted := hs.of_run_eq (s.setInput_run rest)
    exact preciseEnd_of_setInput (preciseEnd_finish_takeInput htaken v)
  · exact .completed (hs.of_run_eq s.unfetch_run)

/-! ### Every instruction, and every step -/

/-- Every instruction that faults does so with none of its writes made (R12, R126). -/
theorem preciseEnd_exec (i : Instr) : PreciseEnd s (exec i s) := by
  cases i with
  | jmp addr => exact preciseEnd_finish_setPc hs addr.toNat
  | jz addr => exact preciseEnd_jz hs addr
  | jn addr => exact preciseEnd_jn hs addr
  | lv val => exact .completed (hs.of_run_eq (s.setAc_run _))
  | add addr => exact preciseEnd_finish_aluOp hs _ addr
  | sub addr => exact preciseEnd_finish_aluOp hs _ addr
  | mul addr => exact preciseEnd_finish_aluOp hs _ addr
  | div addr => exact preciseEnd_div hs addr
  | ld addr => exact preciseEnd_finish_aluOp hs _ addr
  | mm addr => exact preciseEnd_mm hs addr
  | sc addr => exact preciseEnd_sc hs addr
  | rs addr => exact preciseEnd_rs hs addr
  | hm addr => exact .completed nofun
  | gd x => exact preciseEnd_gd hs x
  | pd x => exact .completed (hs.of_run_eq (s.emit_run _))
  | os n => exact preciseEnd_os s n

end

/-- A waiting step faults in the resume to an odd target alone, from the state of the wait (R90). -/
theorem preciseEnd_waitForResume {s : State} {target : Bits12} (h : s.run = .haltedWaiting target) :
    PreciseEnd s.tick (.next (waitForResume s)) := by
  have hwait : s.tick.NotFaulted := by
    intro e pc ac
    rw [s.tick_run, h]
    exact nofun
  rw [waitForResume_eq]
  split
  · rw [resume_haltedWaiting ((s.tick_run).trans h)]
    split
    · exact preciseEnd_faultedWith s.tick _
    · exact .completed nofun
  · exact .completed hwait

/-- The state a step at `s` enters its faults from (R126): fetched, when the fetch completed; else `s` with
the model's own resume line moved on (log 5). -/
def faultState (s : State) : State :=
  if s.run = .running ∧ s.pc.toNat + 2 ≤ 4096 then fetchedState s else s.tick

theorem faultState_fetched {s : State} (hrun : s.run = .running) (h : s.pc.toNat + 2 ≤ 4096) :
    faultState s = s.tick.putPc (s.pc.toNat + 2) := if_pos ⟨hrun, h⟩

theorem faultState_past_end {s : State} (h : ¬ s.pc.toNat + 2 ≤ 4096) : faultState s = s.tick :=
  if_neg fun hfetch => h hfetch.2

theorem faultState_not_running {s : State} (h : s.run ≠ .running) : faultState s = s.tick :=
  if_neg fun hfetch => h hfetch.1

theorem faultState_pc (s : State) : (faultState s).pc.toNat = faultPc s := by
  unfold faultState faultPc
  split
  · next hfetch => exact putPc_toNat s hfetch.2
  · rfl

/-- But for PC, the state faults are entered from is the state before the step. -/
theorem faultState_frame (s : State) :
    (faultState s).ac = s.ac ∧ (faultState s).mem = s.mem ∧ (faultState s).out = s.out ∧
      (faultState s).gdMode = s.gdMode := by
  unfold faultState
  split <;> exact ⟨rfl, rfl, rfl, rfl⟩

/-- Every step that faults does so with no change made but the fetch's (R126). -/
theorem preciseEnd_step (s : State) : PreciseEnd (faultState s) (step s) := by
  cases hrun : s.run with
  | running =>
    rw [step_running hrun]
    split
    · next hin =>
      have hfetched : (s.tick.putPc (s.pc.toNat + 2)).NotFaulted := by
        intro e pc ac
        rw [State.putPc_run, State.tick_run, hrun]
        exact nofun
      rw [faultState_fetched hrun hin]
      exact preciseEnd_exec hfetched _
    · next hpast =>
      rw [faultState_past_end hpast]
      exact preciseEnd_faultedWith s.tick _
  | haltedWaiting target =>
    rw [step_haltedWaiting hrun, faultState_not_running (by rw [hrun]; exact nofun)]
    exact preciseEnd_waitForResume hrun
  | terminated =>
    rw [step_terminated hrun]
    exact .noStep _
  | faulted e pc ac =>
    rw [step_faulted hrun]
    exact .noStep _

theorem step_ne_next_of_faulted {s : State} {e : CpuError} {pc : PcBits} {ac : Bits12}
    (h : s.run = .faulted e pc ac) (u : State) : step s ≠ .next u := by
  rw [step_faulted h]
  exact nofun

end Sys2Proof.Machine

namespace Sys2Proof.Proofs

open Sys2Proof.Machine Sys2Proof.Claims

/-- Settles O38: of the ends of a step only fault entry leads to FAULTED, and fault entry records and keeps
the state it is made from. -/
theorem faultEntryIsPrecise : Obligations.FaultEntryIsPrecise := by
  intro s t e pc ac hstep hfault
  have hend := preciseEnd_step s
  rw [hstep] at hend
  cases hend with
  | completed hnot => exact absurd hfault (hnot e pc ac)
  | raised rest e' =>
    obtain ⟨hac, hmem, hout, hmode⟩ := faultState_frame s
    have hrecord := State.raise_run ((faultState s).setInput rest) e'
    have hterminal := step_ne_next_of_faulted hrecord
    rw [hrecord] at hfault
    cases hfault
    exact ⟨faultState_pc s, hac, rfl, hac, hmem, hout, hmode, hterminal⟩

end Sys2Proof.Proofs
end

section
/-! PROOFS. Family 30_encoding.md: the decoder and the encoder undo each other (R55 to R57, R60, R61). An
instruction is its opcode with its operand, and a word is those two fields. -/

namespace Sys2Proof

/-! ### Instructions, words and bytes name each other -/

/-- The table row of an instruction's own opcode is that instruction (R60). -/
@[simp] theorem instrOf_fields (i : Instr) : instrOf i.opcode i.operand = i := by
  cases i <;> rfl

@[simp] theorem decodeWord_wordOfFields (op : Opcode) (x : Bits12) :
    decodeWord (wordOfFields op x) = instrOf op x := by
  rw [decodeWord, opField_wordOfFields, operandField_wordOfFields]

@[simp] theorem decodeWord_encode (i : Instr) : decodeWord (encode i) = i := by
  rw [encode, decodeWord_wordOfFields, instrOf_fields]

@[simp] theorem encode_decodeWord (w : Word) : encode (decodeWord w) = w := by
  rw [encode, decodeWord_opcode, decodeWord_operand, wordOfFields_split]

theorem decode_wordBytes (w : Word) (rest : List Byte) :
    decode (w.firstByte :: w.secondByte :: rest) = .ok (decodeWord w, rest) := by
  rw [decode, wordOfBytes_split]

theorem decode_encodeBytes (i : Instr) (rest : List Byte) : decode (encodeBytes i ++ rest) = .ok (i, rest) := by
  rw [encodeBytes, List.cons_append, List.cons_append, List.nil_append, decode_wordBytes, decodeWord_encode]

/-- A word as the opcode table's 16 bits is decoded like the word itself. -/
theorem decodeTableWord_toNat (w : Word) : decodeTableWord 16 w.toNat = some (decodeWord w) := by
  have hword : BitVec.ofNat 16 (w.toNat % 2 ^ 16) = w := by
    rw [Nat.mod_eq_of_lt w.isLt, BitVec.ofNat_toNat, BitVec.setWidth_eq]
  simp only [decodeTableWord, hword, decode_wordBytes]

theorem encodeBytes_eq_iff (i : Instr) (b0 b1 : Byte) :
    encodeBytes i = [b0, b1] ↔ i = decodeWord (wordOfBytes b0 b1) := by
  constructor
  · intro hbytes
    simp only [encodeBytes, List.cons.injEq, and_true] at hbytes
    obtain ⟨hfirst, hsecond⟩ := hbytes
    rw [← hfirst, ← hsecond, wordOfBytes_split, decodeWord_encode]
  · rintro rfl
    rw [encodeBytes, encode_decodeWord, wordOfBytes_firstByte, wordOfBytes_secondByte]

/-- The word that is an opcode's number followed by the operand decodes to the opcode's row. -/
theorem decodeWord_of_opcode {i : Instr} (op : Nat) (h : i.opcode.toNat = op) :
    decodeWord (BitVec.ofNat 16 (op * 4096 + i.operand.toNat)) = i := by
  rw [← h]
  exact decodeWord_encode i

end Sys2Proof

namespace Sys2Proof.Proofs

/-- Settles O1. Every operand fits its field by its type, so the well-formedness is not used. -/
theorem decodeInvertsEncode : Obligations.DecodeInvertsEncode := by
  intro i rest _
  refine ⟨decode_encodeBytes i rest, decodeWord_encode i, ?_⟩
  rw [decodeTableWord_toNat, decodeWord_encode]

/-- Settles O2: the instruction is the decoded word's, and both directions go through that word. -/
theorem everyWordIsOneInstruction : Obligations.EveryWordIsOneInstruction :=
  fun b0 b1 _ => ⟨decodeWord (wordOfBytes b0 b1), rfl, fun j => encodeBytes_eq_iff j b0 b1⟩

/-- Settles O4, row by row of the opcode table. -/
theorem opcodeMapRows : Obligations.OpcodeMapRows := fun x =>
  ⟨decodeWord_of_opcode (i := .jmp x) 0 rfl, decodeWord_of_opcode (i := .jz x) 1 rfl,
    decodeWord_of_opcode (i := .jn x) 2 rfl, decodeWord_of_opcode (i := .lv x) 3 rfl,
    decodeWord_of_opcode (i := .add x) 4 rfl, decodeWord_of_opcode (i := .sub x) 5 rfl,
    decodeWord_of_opcode (i := .mul x) 6 rfl, decodeWord_of_opcode (i := .div x) 7 rfl,
    decodeWord_of_opcode (i := .ld x) 8 rfl, decodeWord_of_opcode (i := .mm x) 9 rfl,
    decodeWord_of_opcode (i := .sc x) 10 rfl, decodeWord_of_opcode (i := .rs x) 11 rfl,
    decodeWord_of_opcode (i := .hm x) 12 rfl, decodeWord_of_opcode (i := .gd x) 13 rfl,
    decodeWord_of_opcode (i := .pd x) 14 rfl, decodeWord_of_opcode (i := .os x) 15 rfl⟩

/-- Settles O5: each pair of bytes is an encoding, by evaluation of the encoder, and decodes back. -/
theorem sampleWordsDecode : Obligations.SampleWordsDecode :=
  ⟨decode_encodeBytes (.jmp 0x000) [], decode_encodeBytes (.lv 0xFF9) [], decode_encodeBytes (.mul 0x116) [],
    decode_encodeBytes (.mm 0xFFF) [], decode_encodeBytes (.sc 0x10A) [], decode_encodeBytes (.hm 0x030) [],
    decode_encodeBytes (.gd 0x123) [], decode_encodeBytes (.os 0xFFF) []⟩

end Sys2Proof.Proofs
end

section
/-! PROOFS. Family 44_system_io.md: HM with its resume (R90), GD (R92), and the strings GD accepts (R91). -/

namespace Sys2Proof.Machine

open Sys2Proof.Claims

/-! ### A step, by the run state it starts in (R71) -/

/-- A step at a running state whose fetch completes runs the fetched instruction on the fetched state. -/
theorem step_fetched {s : State} (hrun : s.run = .running) (hin : s.pc.toNat + 2 ≤ 4096) :
    step s = exec (fetchedInstr s) (fetchedState s) :=
  (step_running hrun).trans (if_pos hin)

theorem step_past_end {s : State} (hrun : s.run = .running) (hpast : ¬ s.pc.toNat + 2 ≤ 4096) :
    step s = .next (s.tick.raise (.outOfRange s.pc.toNat)) :=
  (step_running hrun).trans (if_neg hpast)

theorem resumeArrives_iff (s : State) : s.resumeArrives = true ↔ s.resumeLine.head? = some true := by
  unfold State.resumeArrives
  cases s.resumeLine <;> simp

theorem step_waits {s : State} {t : Bits12} (hrun : s.run = .haltedWaiting t)
    (hsignal : s.resumeLine.head? ≠ some true) : step s = .next s.tick := by
  rw [step_haltedWaiting hrun, waitForResume, if_neg (mt (resumeArrives_iff s).mp hsignal)]

theorem step_resumes {s : State} {t : Bits12} (hrun : s.run = .haltedWaiting t)
    (hsignal : s.resumeLine.head? = some true) :
    step s = .next (if t.toNat % 2 = 1 then s.tick.raise (.invalidAddress t.toNat)
      else (s.tick.putPc t.toNat).setRun .running) := by
  rw [step_haltedWaiting hrun, waitForResume, if_pos ((resumeArrives_iff s).mpr hsignal),
    resume_haltedWaiting (s.tick_run.trans hrun)]

/-! ### One equation per case of each instruction -/

theorem exec_hm (addr : Bits12) (s : State) : exec (.hm addr) s = .next (s.setRun (.haltedWaiting addr)) := rfl

theorem exec_gd_takes {s : State} {v : Nat} {rest : List Text} (h : awaitInput s.input = some (v, rest))
    (x : Bits12) : exec (.gd x) s = (s.setInput rest).finish (takeInput v (s.setInput rest)) := by
  simp only [exec, execGd, h]

theorem exec_gd_waits {s : State} (h : awaitInput s.input = none) (x : Bits12) :
    exec (.gd x) s = .next s.unfetch := by
  simp only [exec, execGd, h]

/-! ### The first valid string (R32, R92) -/

theorem awaitInput_of_valid {bad rest : List Text} {good : Text} {v : Nat}
    (hbad : ∀ b ∈ bad, parseInput b = none) (hgood : parseInput good = some v) :
    awaitInput (bad ++ good :: rest) = some (v, rest) := by
  induction bad with
  | nil => simp [awaitInput, hgood]
  | cons b bad ih =>
    rw [List.forall_mem_cons] at hbad
    obtain ⟨hb, hbad⟩ := hbad
    simp [awaitInput, hb, ih hbad]

theorem awaitInput_of_malformed {l : List Text} (h : ∀ b ∈ l, parseInput b = none) : awaitInput l = none := by
  rcases awaitInput_cases l with ⟨hnone, _⟩ | ⟨bad, good, rest, v, rfl, _, hgood, _⟩
  · exact hnone
  · rw [h good (by simp)] at hgood
    cases hgood

/-- With no valid string to come, GD's step gives the fetch back (R27). -/
theorem step_gd_waits {s : State} {x : Bits12} (hrun : s.run = .running) (hin : s.pc.toNat + 2 ≤ 4096)
    (hinstr : fetchedInstr s = .gd x) (hinput : ∀ b ∈ s.input, parseInput b = none) :
    step s = .next s.tick := by
  have hwait : awaitInput (fetchedState s).input = none := awaitInput_of_malformed hinput
  rw [step_fetched hrun hin, hinstr, exec_gd_waits hwait]
  exact congrArg _ (unfetch_putPc s.tick)

/-- The value GD takes is one that `parseInput` gave, so it is at most 4095. -/
theorem awaitInput_le {l rest : List Text} {v : Nat} (h : awaitInput l = some (v, rest)) : v ≤ 4095 := by
  rcases awaitInput_cases l with ⟨hnone, _⟩ | ⟨_, _, _, w, _, _, hgood, hsome⟩
  · rw [hnone] at h
    cases h
  · rw [hsome] at h
    cases h
    exact parseInput_le hgood

/-! ### Numerals (R91) -/

/-- The statement's reading of a numeral: the characters are digits, each with its value in `ds`, and `v` is
the number they make in the base. -/
def ReadsAs (base : Nat) (digit : Char → Option Nat) (cs : Text) (ds : List Nat) (v : Nat) : Prop :=
  cs.map digit = ds.map some ∧ v = ds.foldl (fun n d => base * n + d) 0

theorem digitsFrom_eq_some_iff {base : Nat} {digit : Char → Option Nat} {acc v : Nat} {cs : Text} :
    digitsFrom base digit acc cs = some v ↔
      ∃ ds : List Nat, cs.map digit = ds.map some ∧ v = ds.foldl (fun n d => base * n + d) acc := by
  induction cs generalizing acc with
  | nil =>
    constructor
    · intro h
      exact ⟨[], rfl, (Option.some.inj h).symm⟩
    · rintro ⟨ds, hmap, rfl⟩
      rw [List.map_nil, eq_comm, List.map_eq_nil_iff] at hmap
      rw [hmap]
      rfl
  | cons c cs ih =>
    cases hc : digit c with
    | none =>
      simp only [digitsFrom, hc, List.map_cons, reduceCtorEq, false_iff]
      rintro ⟨ds, hmap, _⟩
      cases ds <;> cases hmap
    | some d =>
      simp only [digitsFrom, hc, ih, List.map_cons, Nat.mul_comm acc base]
      constructor
      · rintro ⟨ds, hmap, hv⟩
        exact ⟨d :: ds, by rw [hmap, List.map_cons], hv⟩
      · rintro ⟨ds, hmap, hv⟩
        obtain ⟨d', ds, rfl, hd, htail⟩ := List.map_eq_cons_iff.mp hmap.symm
        cases hd
        exact ⟨ds, htail.symm, hv⟩

theorem ReadsAs.ne_nil_iff {base : Nat} {digit : Char → Option Nat} {cs : Text} {ds : List Nat} {v : Nat}
    (h : ReadsAs base digit cs ds v) : ds ≠ [] ↔ cs ≠ [] := by
  have hlength := congrArg List.length h.1
  rw [List.length_map, List.length_map] at hlength
  rw [← List.length_pos_iff, ← List.length_pos_iff, hlength]

theorem ReadsAs.digit_of_mem {base : Nat} {digit : Char → Option Nat} {cs : Text} {ds : List Nat} {v : Nat}
    (h : ReadsAs base digit cs ds v) {c : Char} (hc : c ∈ cs) : ∃ d, digit c = some d := by
  have hmem : digit c ∈ ds.map some := h.1 ▸ List.mem_map_of_mem hc
  obtain ⟨d, _, hd⟩ := List.mem_map.mp hmem
  exact ⟨d, hd.symm⟩

theorem numeral_eq_some_iff {base : Nat} {digit : Char → Option Nat} {cs : Text} {v : Nat} :
    numeral base digit cs = some v ↔ ∃ ds : List Nat, ds ≠ [] ∧ ReadsAs base digit cs ds v := by
  cases cs with
  | nil => exact ⟨nofun, fun ⟨_, hne, h⟩ => absurd rfl (h.ne_nil_iff.mp hne)⟩
  | cons c cs =>
    rw [numeral, digitsFrom_eq_some_iff]
    refine exists_congr fun ds => ⟨fun h => ⟨?_, h⟩, And.right⟩
    exact (ReadsAs.ne_nil_iff h).mpr (List.cons_ne_nil c cs)

/-- The two forms of a literal (R91, R99); a `/` is no decimal digit, so they exclude each other. -/
theorem literalValue_eq_some_iff {core : Text} {v : Nat} :
    literalValue core = some v ↔ ∃ ds : List Nat, ds ≠ [] ∧
      (ReadsAs 10 decDigit core ds v ∨ ∃ hs, core = '/' :: hs ∧ ReadsAs 16 hexDigit hs ds v) := by
  cases core with
  | nil =>
    refine ⟨nofun, ?_⟩
    rintro ⟨_, hne, hdec | ⟨_, hslash, _⟩⟩
    · exact absurd rfl (hdec.ne_nil_iff.mp hne)
    · cases hslash
  | cons c cs =>
    by_cases hslash : c = '/'
    · subst hslash
      have hdec : ∀ ds, ¬ ReadsAs 10 decDigit ('/' :: cs) ds v := fun ds h => by
        obtain ⟨d, hd⟩ := h.digit_of_mem List.mem_cons_self
        cases hd
      simp [literalValue, numeral_eq_some_iff, hdec]
    · simp [literalValue, numeral_eq_some_iff, hslash]

/-! ### White space around a string (R91, log 10) -/

theorem isInputSpace_eq_false {c : Char} (h : 33 ≤ c.toNat ∧ c.toNat ≤ 126) : isInputSpace c = false := by
  obtain ⟨hlow, hhigh⟩ := h
  have hne : ∀ d : Char, d.toNat ≤ 32 → c ≠ d := by
    rintro d hd rfl
    omega
  simp [isInputSpace, isPrintableAscii, hne ' ' (by decide), hne '\t' (by decide), hne '\n' (by decide),
    hne '\r' (by decide), hhigh, show 32 ≤ c.toNat by omega]

theorem decDigit_not_space {c : Char} {d : Nat} (h : decDigit c = some d) : isInputSpace c = false := by
  unfold decDigit at h
  split at h
  · exact isInputSpace_eq_false (by omega)
  · cases h

theorem hexDigit_not_space {c : Char} {d : Nat} (h : hexDigit c = some d) : isInputSpace c = false := by
  unfold hexDigit at h
  split at h
  · exact isInputSpace_eq_false (by omega)
  split at h
  · exact isInputSpace_eq_false (by omega)
  split at h
  · exact isInputSpace_eq_false (by omega)
  · cases h

/-- No character of a literal is white space. -/
theorem literalValue_not_space {core : Text} {v : Nat} (h : literalValue core = some v) :
    ∀ c ∈ core, isInputSpace c = false := by
  intro c hc
  obtain ⟨ds, _, hdec | ⟨hs, rfl, hhex⟩⟩ := literalValue_eq_some_iff.mp h
  · obtain ⟨d, hd⟩ := hdec.digit_of_mem hc
    exact decDigit_not_space hd
  · rcases List.mem_cons.mp hc with rfl | hc
    · exact isInputSpace_eq_false (by decide)
    · obtain ⟨d, hd⟩ := hhex.digit_of_mem hc
      exact hexDigit_not_space hd

/-- What `trim` takes off a string is white space on either side. -/
theorem exists_eq_trim (t : Text) :
    ∃ pre post : Text, t = pre ++ trim t ++ post ∧ (∀ c ∈ pre, isInputSpace c = true) ∧
      ∀ c ∈ post, isInputSpace c = true := by
  refine ⟨t.takeWhile isInputSpace, ((t.dropWhile isInputSpace).reverse.takeWhile isInputSpace).reverse,
    ?_, fun c hc => List.mem_takeWhile_imp hc,
    fun c hc => List.mem_takeWhile_imp (List.mem_reverse.mp hc)⟩
  rw [trim, List.append_assoc, ← List.reverse_append, List.takeWhile_append_dropWhile, List.reverse_reverse,
    List.takeWhile_append_dropWhile]

theorem dropWhile_append_of_head {α : Type} {p : α → Bool} {pre l : List α} (hpre : ∀ c ∈ pre, p c = true)
    (hhead : ∀ c ∈ l.head?, p c = false) : (pre ++ l).dropWhile p = l := by
  rw [List.dropWhile_append_of_pos hpre]
  cases l with
  | nil => rfl
  | cons c l => exact List.dropWhile_cons_of_neg (by simp [hhead c rfl])

/-- A core without white space is what `trim` leaves of it. -/
theorem trim_append {pre core post : Text} (hne : core ≠ []) (hpre : ∀ c ∈ pre, isInputSpace c = true)
    (hcore : ∀ c ∈ core, isInputSpace c = false) (hpost : ∀ c ∈ post, isInputSpace c = true) :
    trim (pre ++ core ++ post) = core := by
  have hfront : (pre ++ (core ++ post)).dropWhile isInputSpace = core ++ post := by
    refine dropWhile_append_of_head hpre fun c hc => hcore c (List.mem_of_mem_head? ?_)
    rwa [List.head?_append_of_ne_nil _ hne] at hc
  have hback : (post.reverse ++ core.reverse).dropWhile isInputSpace = core.reverse :=
    dropWhile_append_of_head (fun c hc => hpost c (List.mem_reverse.mp hc))
      fun c hc => hcore c (List.mem_reverse.mp (List.mem_of_mem_head? hc))
  rw [trim, List.append_assoc, hfront, List.reverse_append, hback, List.reverse_reverse]

theorem parseInput_eq_some_iff {t : Text} {v : Nat} :
    parseInput t = some v ↔ literalValue (trim t) = some v ∧ v ≤ 4095 := by
  unfold parseInput Config.maxOperand
  cases literalValue (trim t) with
  | none => simp
  | some w => by_cases hw : w ≤ 4095 <;> simp [hw] <;> omega

end Sys2Proof.Machine

namespace Sys2Proof.Proofs

open Sys2Proof.Machine Sys2Proof.Claims

/-- Settles O22: at a waiting state, by whether the signal comes, and then by the target's parity. -/
theorem hmAndResume : Obligations.HmAndResume := by
  refine ⟨fun addr s => ⟨encode_toNat_of_opcode 12 rfl, exec_hm addr s⟩, fun t s hrun => ?_⟩
  by_cases hsignal : s.resumeLine.head? = some true
  · rw [if_neg (not_not.mpr hsignal)]
    exact step_resumes hrun hsignal
  · rw [if_pos hsignal]
    exact step_waits hrun hsignal

/-- Settles O23, by the mode GD runs in. -/
theorem gdResult : Obligations.GdResult := by
  intro x s bad rest good v hinput hbad hgood
  refine ⟨encode_toNat_of_opcode 13 rfl, ?_⟩
  have htaken : awaitInput s.input = some (v, rest) := hinput ▸ awaitInput_of_valid hbad hgood
  rw [exec_gd_takes htaken]
  split
  · next hmode =>
    rw [takeInput_ac ((s.setInput_gdMode rest).trans hmode), State.finish_ok]
    obtain ⟨a, ha, hnext⟩ := next_setAc (s.setInput rest) (sext12 v)
    exact ⟨a, ha.trans (sext12_sext12 _), hnext⟩
  · next hmode =>
    rw [takeInput_pc ((s.setInput_gdMode rest).trans hmode)]
    exact finish_setPc v (s.setInput rest)

/-- Settles O24. -/
theorem gdWaitsUnchanged : Obligations.GdWaitsUnchanged := fun _ _ => step_gd_waits

/-- Settles O25: a literal has no white space in it, so it is what `trim` leaves. -/
theorem inputStringsAccepted : Obligations.InputStringsAccepted := by
  intro t v
  rw [parseInput_eq_some_iff]
  constructor
  · rintro ⟨hliteral, hle⟩
    obtain ⟨pre, post, ht, hpre, hpost⟩ := exists_eq_trim t
    exact ⟨pre, trim t, post, ht, hpre, hpost, hle, literalValue_eq_some_iff.mp hliteral⟩
  · rintro ⟨pre, core, post, rfl, hpre, hpost, hle, hcore⟩
    have hliteral : literalValue core = some v := literalValue_eq_some_iff.mpr hcore
    have hne : core ≠ [] := by
      rintro rfl
      cases hliteral
    rw [trim_append hne hpre (literalValue_not_space hliteral) hpost]
    exact ⟨hliteral, hle⟩

end Sys2Proof.Proofs
end

section
/-! PROOFS. Laws that join instructions: ADD, SUB and MUL modulo 4096 (R77 to R79), a word that MM or SC
stored and LD, RS or the next fetch reads back (20_memory.md section 6; 42_accumulator.md; 43_subroutine.md). -/

namespace Sys2Proof.Machine

open Sys2Proof.Claims

/-! ### AC written and written back (R77) -/

/-- Writing the value AC already has, to a state that differs in AC alone, gives the state itself. -/
theorem setAc_setAc_eq_self {s : State} {y : Int} (h : BitVec.ofInt 12 y = s.ac) (x : Int) :
    (s.setAc x).setAc y = s := by
  simp only [State.setAc, h]

theorem ofInt12_sub (x y : Int) : BitVec.ofInt 12 (x - y) = BitVec.ofInt 12 x - BitVec.ofInt 12 y := by
  rw [BitVec.sub_eq_add_neg, ← BitVec.ofInt_neg, ← BitVec.ofInt_add, Int.sub_eq_add_neg]

/-- The value kept in AC differs from the exact one by a multiple of 4096. -/
theorem sext12_sub_mod (x : Int) : (sext12 x - x) % 4096 = 0 := by
  unfold sext12; omega

theorem exec_add_of_ne_4095 {addr : Bits12} (h : addr ≠ 4095) (s : State) :
    exec (.add addr) s = .next (s.setAc (s.ac.toInt + dataOperand s addr.toNat)) :=
  finish_aluOp_of_ne_4095 _ h s

theorem exec_sub_of_ne_4095 {addr : Bits12} (h : addr ≠ 4095) (s : State) :
    exec (.sub addr) s = .next (s.setAc (s.ac.toInt - dataOperand s addr.toNat)) :=
  finish_aluOp_of_ne_4095 _ h s

theorem exec_mul_of_ne_4095 {addr : Bits12} (h : addr ≠ 4095) (s : State) :
    exec (.mul addr) s = .next (s.setAc (s.ac.toInt * dataOperand s addr.toNat)) :=
  finish_aluOp_of_ne_4095 _ h s

theorem exec_ld_of_ne_4095 {addr : Bits12} (h : addr ≠ 4095) (s : State) :
    exec (.ld addr) s = .next (s.setAc (dataOperand s addr.toNat)) :=
  finish_aluOp_of_ne_4095 _ h s

/-! ### A stored word read back (R11, R40) -/

theorem ne_4095_of_even {addr : Bits12} (h : addr.toNat % 2 = 0) : addr ≠ 4095 := by
  rintro rfl
  exact absurd h (by decide)

theorem wordAt_putWord {m : Memory} {a : Nat} (hm : m.wf = true) (ha : a + 2 ≤ 4096) (w : Word) :
    (m.putWord a w).wordAt a = w := by
  have hread := Memory.read_putWord hm ha w
  rw [Memory.wordAt, hread, hread, if_pos rfl, if_neg (Nat.succ_ne_self a), if_pos rfl, wordOfBytes_split]

theorem dataOperand_eq (s : State) (a : Nat) : dataOperand s a = sext12 (s.mem.wordAt a).toNat :=
  (sext12_wordAt s.mem a).symm

theorem memWord_eq (m : Memory) (a : Nat) : memWord m a = (m.wordAt a).toNat := (wordAt_toNat m a).symm

/-- The 16-bit image of a number has the number's low 12 bits (R9). -/
theorem sext12_u16 (x : Int) : sext12 (u16 x).toNat = sext12 x := by
  rw [u16_toNat]
  unfold sext12
  omega

theorem fetch_of_pc {u : State} {addr : Bits12} (hpc : u.pc.toNat = addr.toNat) (haddr : addr ≠ 4095) :
    ∃ u', fetch u = .ok (u.mem.wordAt addr.toNat, u') := by
  rcases fetch_cases u with ⟨hpast, _⟩ | ⟨_, hfetch⟩
  · exact absurd (word_fits_of_ne_4095 haddr) (by omega)
  · exact ⟨_, hpc ▸ hfetch⟩

/-- A slot that holds a return address below 4096 has a high byte that RS accepts (R89). -/
theorem read_high_le {m : Memory} {a : Nat} (h : (m.wordAt a).toNat < 4096) : ¬ (m.read a).toNat > 0xF := by
  rw [wordAt_toNat] at h
  omega

end Sys2Proof.Machine

namespace Sys2Proof.Proofs

open Sys2Proof.Machine Sys2Proof.Claims

/-- Settles O28: the write to AC is the map to 12-bit patterns, which keeps sums and differences; ADD
leaves memory, so SUB reads the same operand. -/
theorem addSubModulo4096 : Obligations.AddSubModulo4096 := by
  intro addr s haddr
  have hsum : BitVec.ofInt 12 (s.ac.toInt + dataOperand s addr.toNat) =
      s.ac + BitVec.ofInt 12 (dataOperand s addr.toNat) := by rw [BitVec.ofInt_add, BitVec.ofInt_toInt]
  refine ⟨_, _, _, exec_add_of_ne_4095 haddr s, exec_sub_of_ne_4095 haddr s, hsum, ?_,
    exec_sub_of_ne_4095 haddr _, setAc_setAc_eq_self ?_ _⟩
  · rw [State.setAc_ac, ofInt12_sub, BitVec.ofInt_toInt]
  · rw [State.setAc_ac, hsum, ofInt12_sub, BitVec.ofInt_toInt]
    exact BitVec.add_sub_cancel _ _

/-- Settles O29. -/
theorem mulKeepsLowProduct : Obligations.MulKeepsLowProduct := by
  intro addr s haddr
  refine ⟨_, exec_mul_of_ne_4095 haddr s, ?_, ?_⟩
  · rw [State.setAc_ac, BitVec.ofInt_mul, BitVec.ofInt_toInt]
  · rw [State.setAc_ac, toInt_ofInt12]
    exact sext12_sub_mod _

/-- Settles O31: the operand LD reads is the sign extension of the 16-bit image that MM stored. -/
theorem ldAfterMmRestoresAc : Obligations.LdAfterMmRestoresAc := by
  intro addr x s hmem haddr
  refine ⟨_, _, exec_mm_of_ne_4095 haddr s, exec_ld_of_ne_4095 haddr _, ?_⟩
  rw [State.setAc_ac, dataOperand_eq, State.setMem_mem, wordAt_putWord hmem (word_fits_of_ne_4095 haddr),
    sext12_u16, ofInt12_sext12, BitVec.ofInt_toInt]

/-- Settles O32: SC stores PC as one word below 4096 and even, which passes every check of RS. -/
theorem rsAfterScReturns : Obligations.RsAfterScReturns := by
  intro addr s hmem hpc hlt heven hle
  have haddr := ne_4095_of_even heven
  refine ⟨_, exec_sc_of_even haddr (by omega) s, putPc_toNat _ (by omega), fun u hu => ?_⟩
  have hslot : (u.mem.wordAt addr.toNat).toNat = s.pc.toNat := by
    rw [hu, State.putPc_mem, State.setMem_mem, wordAt_putWord hmem (by omega), toNat_setWidth_pc]
  have hpceven : ¬ s.pc.toNat % 2 = 1 := by
    obtain ⟨heven, _⟩ := hpc
    omega
  rw [exec_rs_of_ne_4095 haddr, if_neg (read_high_le (hslot ▸ hlt)), finish_setPc, memWord_eq, hslot,
    if_neg hpceven, BitVec.ofNat_toNat, BitVec.setWidth_eq]

/-- Settles O33: the fetch reads the word at the store's address, which is the word stored. -/
theorem storesReachTheNextFetch : Obligations.StoresReachTheNextFetch := by
  intro addr s u hmem heven hpc
  have haddr := ne_4095_of_even heven
  have hin := word_fits_of_ne_4095 haddr
  obtain ⟨u', hfetch⟩ := fetch_of_pc hpc haddr
  refine ⟨fun t ht hu => ⟨_, u', hfetch, ?_⟩, fun t ht hu => ⟨_, u', hfetch, ?_⟩⟩
  · rw [exec_mm_of_ne_4095 haddr] at ht
    cases ht
    rw [hu, State.setMem_mem, wordAt_putWord hmem hin, u16_toNat]
  · rw [exec_sc_of_even haddr (by omega)] at ht
    cases ht
    rw [hu, State.putPc_mem, State.setMem_mem, wordAt_putWord hmem hin, toNat_setWidth_pc]

end Sys2Proof.Proofs
end

section
/-! PROOFS. What every instruction does, once: it enters the error that R121 to R127 give it, or, when they
give none, it completes with the effect of its rule. Who writes and reads what (R16, R20, R46), which error a
step raises, and the transitions of the run state (10_state.md section 4) are read off that. -/

namespace Sys2Proof.Machine

open Sys2Proof.Claims

/-! ### The effect of an instruction that raises no error -/

/-- GD's effect: the wait, with the fetch given back (log 6), or the value taken in its mode (R92). -/
def gdCompleted (s : State) : State :=
  match awaitInput s.input with
  | none => s.unfetch
  | some (v, rest) =>
    match s.gdMode with
    | .ac => (s.setInput rest).setAc (sext12 v)
    | .pc => (s.setInput rest).putPc v

/-- The fetched state `s` after an instruction that raises no error (R73 to R94). -/
def completed (s : State) : Instr → State
  | .jmp a => s.putPc a.toNat
  | .jz a => if s.ac.toInt = 0 then s.putPc a.toNat else s
  | .jn a => if s.ac.toInt < 0 then s.putPc a.toNat else s
  | .lv v => s.setAc (sext12 v.toNat)
  | .add a => s.setAc (s.ac.toInt + dataOperand s a.toNat)
  | .sub a => s.setAc (s.ac.toInt - dataOperand s a.toNat)
  | .mul a => s.setAc (s.ac.toInt * dataOperand s a.toNat)
  | .div a => s.setAc (Int.tdiv s.ac.toInt (dataOperand s a.toNat))
  | .ld a => s.setAc (dataOperand s a.toNat)
  | .mm a => s.setMem (s.mem.putWord a.toNat (u16 s.ac.toInt))
  | .sc a => (s.setMem (s.mem.putWord a.toNat (s.pc.setWidth 16))).putPc (a.toNat + 2)
  | .rs a => s.putPc (memWord s.mem a.toNat)
  | .hm a => s.setRun (.haltedWaiting a)
  | .gd _ => gdCompleted s
  | .pd _ => s.emit s.ac.toInt
  | .os _ => s.setRun .terminated

/-- The strings left once an instruction has raised: GD has taken its string (log 4). -/
def inputAtFault (s : State) : Instr → List Text
  | .gd _ =>
    match awaitInput s.input with
    | none => s.input
    | some (_, rest) => rest
  | _ => s.input

/-- An instruction's end: completed, or the error entered. -/
def endOf (done : State) (atFault : State) : Option CpuError → State
  | none => done
  | some e => faultedWith atFault e

theorem finish_setPc_endOf (v : Nat) (s : State) :
    s.finish (setPc v s) = .next (endOf (s.putPc v) s (targetError v)) := by
  rw [finish_setPc, targetError]
  split <;> rfl

theorem finish_aluOp_endOf (f : Int → Int → Int) (addr : Bits12) (s : State) :
    s.finish (aluOp f (addressOf addr) s) =
      .next (endOf (s.setAc (f s.ac.toInt (dataOperand s addr.toNat))) s (rangeThen addr none)) := by
  by_cases haddr : addr = 4095
  · rw [haddr, finish_aluOp_4095]
    rfl
  · rw [finish_aluOp_of_ne_4095 f haddr, rangeThen, if_neg haddr]
    rfl

theorem exec_jz_endOf (addr : Bits12) (s : State) :
    exec (.jz addr) s = .next (endOf (completed s (.jz addr)) s (instrError s (.jz addr))) := by
  by_cases htaken : s.ac.toInt = 0
  · rw [exec_jz_taken htaken, finish_setPc_endOf, completed, instrError, if_pos htaken, if_pos htaken]
  · rw [exec_jz_not_taken htaken, completed, instrError, if_neg htaken, if_neg htaken]
    rfl

theorem exec_jn_endOf (addr : Bits12) (s : State) :
    exec (.jn addr) s = .next (endOf (completed s (.jn addr)) s (instrError s (.jn addr))) := by
  by_cases htaken : s.ac.toInt < 0
  · rw [exec_jn_taken htaken, finish_setPc_endOf, completed, instrError, if_pos htaken, if_pos htaken]
  · rw [exec_jn_not_taken (Int.not_lt.mp htaken), completed, instrError, if_neg htaken, if_neg htaken]
    rfl

theorem exec_div_endOf (addr : Bits12) (s : State) :
    exec (.div addr) s = .next (endOf (completed s (.div addr)) s (instrError s (.div addr))) := by
  by_cases haddr : addr = 4095
  · rw [haddr, exec_div_4095]
    rfl
  rw [instrError, rangeThen, if_neg haddr]
  by_cases hzero : dataOperand s addr.toNat = 0
  · rw [exec_div_by_zero haddr hzero, if_pos hzero]
    rfl
  · rw [exec_div_by_nonzero haddr hzero, if_neg hzero]
    rfl

theorem exec_mm_endOf (addr : Bits12) (s : State) :
    exec (.mm addr) s = .next (endOf (completed s (.mm addr)) s (instrError s (.mm addr))) := by
  by_cases haddr : addr = 4095
  · rw [haddr, exec_mm_4095]
    rfl
  · rw [exec_mm_of_ne_4095 haddr, instrError, rangeThen, if_neg haddr]
    rfl

theorem exec_sc_endOf (addr : Bits12) (s : State) :
    exec (.sc addr) s = .next (endOf (completed s (.sc addr)) s (instrError s (.sc addr))) := by
  by_cases haddr : addr = 4095
  · rw [haddr, exec_sc_4095]
    rfl
  rw [instrError, rangeThen, if_neg haddr, targetError, Nat.add_mod_right]
  by_cases hodd : addr.toNat % 2 = 1
  · rw [exec_sc_of_odd haddr hodd, if_pos hodd]
    rfl
  · rw [exec_sc_of_even haddr hodd, if_neg hodd]
    rfl

theorem exec_rs_endOf (addr : Bits12) (s : State) :
    exec (.rs addr) s = .next (endOf (completed s (.rs addr)) s (instrError s (.rs addr))) := by
  by_cases haddr : addr = 4095
  · rw [haddr, exec_rs_4095]
    rfl
  rw [exec_rs_of_ne_4095 haddr, instrError, rangeThen, if_neg haddr]
  by_cases hhigh : (s.mem.read addr.toNat).toNat > 0xF
  · rw [if_pos hhigh, if_pos hhigh, State.finish_error]
    rfl
  · rw [if_neg hhigh, if_neg hhigh, finish_setPc_endOf]
    rfl

theorem exec_gd_endOf (x : Bits12) (s : State) :
    exec (.gd x) s = .next (endOf (completed s (.gd x)) (s.setInput (inputAtFault s (.gd x)))
      (instrError s (.gd x))) := by
  simp only [completed, gdCompleted, inputAtFault, instrError]
  cases hinput : awaitInput s.input with
  | none =>
    rw [exec_gd_waits hinput]
    cases s.gdMode <;> rfl
  | some taken =>
    obtain ⟨v, rest⟩ := taken
    rw [exec_gd_takes hinput]
    cases hmode : s.gdMode with
    | ac => rw [takeInput_ac ((s.setInput_gdMode rest).trans hmode)]; rfl
    | pc => rw [takeInput_pc ((s.setInput_gdMode rest).trans hmode), finish_setPc_endOf]

/-- All an instruction can do: the error the rules give it is entered, else its effect is made. -/
theorem exec_eq (i : Instr) (s : State) :
    exec i s = .next (endOf (completed s i) (s.setInput (inputAtFault s i)) (instrError s i)) := by
  cases i with
  | jmp addr => exact finish_setPc_endOf addr.toNat s
  | jz addr => exact exec_jz_endOf addr s
  | jn addr => exact exec_jn_endOf addr s
  | lv val => exact exec_lv val s
  | add addr => exact finish_aluOp_endOf _ addr s
  | sub addr => exact finish_aluOp_endOf _ addr s
  | mul addr => exact finish_aluOp_endOf _ addr s
  | div addr => exact exec_div_endOf addr s
  | ld addr => exact finish_aluOp_endOf _ addr s
  | mm addr => exact exec_mm_endOf addr s
  | sc addr => exact exec_sc_endOf addr s
  | rs addr => exact exec_rs_endOf addr s
  | hm addr => exact exec_hm addr s
  | gd x => exact exec_gd_endOf x s
  | pd x => exact exec_pd x s
  | os n =>
    by_cases hzero : n = 0
    · rw [hzero, exec_os_zero]
      rfl
    · rw [exec_os_of_ne_zero hzero, instrError, if_neg hzero]
      rfl

theorem exec_of_error {i : Instr} {s : State} {e : CpuError} (h : instrError s i = some e) :
    exec i s = .next (faultedWith (s.setInput (inputAtFault s i)) e) := by
  rw [exec_eq, h]
  rfl

theorem exec_of_no_error {i : Instr} {s : State} (h : instrError s i = none) :
    exec i s = .next (completed s i) := by
  rw [exec_eq, h]
  rfl

/-! ### What each effect leaves unchanged (R16, R20, R28, R32, R46) -/

/-- All that GD's effect can be (R92). -/
theorem gdCompleted_cases (s : State) :
    (awaitInput s.input = none ∧ gdCompleted s = s.unfetch) ∨
    ∃ v rest, awaitInput s.input = some (v, rest) ∧
      ((s.gdMode = .ac ∧ gdCompleted s = (s.setInput rest).setAc (sext12 v)) ∨
        (s.gdMode = .pc ∧ gdCompleted s = (s.setInput rest).putPc v)) := by
  unfold gdCompleted
  cases awaitInput s.input with
  | none => exact .inl ⟨rfl, rfl⟩
  | some taken =>
    refine .inr ⟨taken.1, taken.2, rfl, ?_⟩
    cases s.gdMode with
    | ac => exact .inl ⟨rfl, rfl⟩
    | pc => exact .inr ⟨rfl, rfl⟩

/-- The run state an instruction that completes leaves, from the one it runs in (R26). -/
def runAfter (r : RunState) : Instr → RunState
  | .hm a => .haltedWaiting a
  | .os _ => .terminated
  | _ => r

/-- The frame of an instruction that completes from `s` in `t`: what none writes, and what only the listed
ones write. A field left out is one that `t` holds unchanged by its form. -/
structure Frame (s : State) (i : Instr) (t : State) : Prop where
  gdMode : t.gdMode = s.gdMode := by rfl
  resumeLine : t.resumeLine = s.resumeLine := by rfl
  run : t.run = runAfter s.run i := by rfl
  mem : writesMem i = false → t.mem = s.mem := by exact fun _ => rfl
  pc : writesPc i = false → t.pc = s.pc := by exact fun _ => rfl
  ac : writesAc s.gdMode i = false → t.ac = s.ac := by exact fun _ => rfl
  out : emits i = false → t.out = s.out := by exact fun _ => rfl
  input : readsInput i = false → t.input = s.input := by exact fun _ => rfl

section
variable {s : State} {i : Instr} (hrun : runAfter s.run i = s.run)
include hrun

theorem Frame.of_putPc (hi : writesPc i = true) (v : Nat) : Frame s i (s.putPc v) :=
  { run := hrun.symm, pc := fun hi' => absurd (hi.symm.trans hi') nofun }

theorem Frame.of_setAc (hi : writesAc s.gdMode i = true) (x : Int) : Frame s i (s.setAc x) :=
  { run := hrun.symm, ac := fun hi' => absurd (hi.symm.trans hi') nofun }

/-- JZ and JN, taken or not, write PC alone. -/
theorem Frame.of_branch (hi : writesPc i = true) (c : Prop) [Decidable c] (v : Nat) :
    Frame s i (if c then s.putPc v else s) := by
  split
  · exact .of_putPc hrun hi v
  · exact { run := hrun.symm }

end

/-- GD writes AC in the AC mode alone; its wait and its PC mode write PC. The value taken is generalised,
since `rfl` would evaluate its sign extension. -/
theorem frame_gd (s : State) (x : Bits12) : Frame s (.gd x) (gdCompleted s) := by
  rcases gdCompleted_cases s with ⟨_, hgd⟩ | ⟨v, rest, _, ⟨hmode, hgd⟩ | ⟨_, hgd⟩⟩ <;> rw [hgd]
  · exact { pc := nofun }
  · generalize sext12 v = value
    exact { ac := by rw [hmode]; exact nofun, input := nofun }
  · exact { pc := nofun, input := nofun }

theorem frame_completed (s : State) (i : Instr) : Frame s i (completed s i) := by
  cases i with
  | jmp a => exact .of_putPc rfl rfl _
  | jz a => exact .of_branch rfl rfl _ _
  | jn a => exact .of_branch rfl rfl _ _
  | lv v => exact .of_setAc rfl rfl _
  | add a => exact .of_setAc rfl rfl _
  | sub a => exact .of_setAc rfl rfl _
  | mul a => exact .of_setAc rfl rfl _
  | div a => exact .of_setAc rfl rfl _
  | ld a => exact .of_setAc rfl rfl _
  | mm a => exact { mem := nofun }
  | sc a => exact { mem := nofun, pc := nofun }
  | rs a => exact .of_putPc rfl rfl _
  | hm a => exact {}
  | gd x => exact frame_gd s x
  | pd x => exact { out := nofun }
  | os n => exact {}

theorem completed_run (s : State) (i : Instr) : (completed s i).run = runAfter s.run i :=
  (frame_completed s i).run

theorem inputAtFault_eq {i : Instr} (hi : readsInput i = false) (s : State) : inputAtFault s i = s.input := by
  cases i with
  | gd x => cases hi
  | _ => rfl

/-! ### The run state after an instruction (R26) -/

theorem instrError_os_eq_none {s : State} {n : Bits12} (h : instrError s (.os n) = none) : n = 0 := by
  by_contra hn
  rw [instrError, if_neg hn] at h
  cases h

section
variable {s t : State} {i : Instr} (hrun : s.run = .running) (h : exec i s = .next t)
include hrun h

/-- OS 0 alone ends the run without an error (R94). -/
theorem exec_terminated_iff : t.run = .terminated ↔ i = .os 0 := by
  constructor
  · intro hend
    cases herror : instrError s i with
    | some e =>
      rw [exec_of_error herror] at h
      cases h
      cases hend
    | none =>
      rw [exec_of_no_error herror] at h
      cases h
      rw [completed_run, hrun] at hend
      cases i with
      | os n => rw [instrError_os_eq_none herror]
      | _ => cases hend
  · rintro rfl
    rw [exec_os_zero] at h
    cases h
    rfl

/-- HM alone makes the CPU wait for the resume (R90). -/
theorem exec_haltedWaiting_iff {a : Bits12} : t.run = .haltedWaiting a ↔ i = .hm a := by
  constructor
  · intro hwait
    cases herror : instrError s i with
    | some e =>
      rw [exec_of_error herror] at h
      cases h
      cases hwait
    | none =>
      rw [exec_of_no_error herror] at h
      cases h
      rw [completed_run, hrun] at hwait
      cases i with
      | hm a => cases hwait; rfl
      | _ => cases hwait
  · rintro rfl
    rw [exec_hm] at h
    cases h
    rfl

end

/-! ### All a step can do, by run state (R71) -/

/-- The five ends of a step that answers a next state. -/
inductive StepCase (s : State) : State → Prop where
  | executed {t : State} (hrun : s.run = .running) (hin : s.pc.toNat + 2 ≤ 4096)
      (hexec : exec (fetchedInstr s) (fetchedState s) = .next t) : StepCase s t
  | fetchFault (hrun : s.run = .running) (hpast : ¬ s.pc.toNat + 2 ≤ 4096) :
      StepCase s (s.tick.raise (.outOfRange s.pc.toNat))
  | waits {target : Bits12} (hrun : s.run = .haltedWaiting target)
      (hsignal : s.resumeLine.head? ≠ some true) : StepCase s s.tick
  | resumeFault {target : Bits12} (hrun : s.run = .haltedWaiting target)
      (hsignal : s.resumeLine.head? = some true) (hodd : target.toNat % 2 = 1) :
      StepCase s (s.tick.raise (.invalidAddress target.toNat))
  | resumes {target : Bits12} (hrun : s.run = .haltedWaiting target)
      (hsignal : s.resumeLine.head? = some true) (heven : ¬ target.toNat % 2 = 1) :
      StepCase s ((s.tick.putPc target.toNat).setRun .running)

theorem step_answers {s : State} (h : s.run = .running ∨ ∃ target, s.run = .haltedWaiting target) :
    ∃ t, step s = .next t := by
  rcases h with hrun | ⟨target, hrun⟩
  · by_cases hin : s.pc.toNat + 2 ≤ 4096
    · exact ⟨_, (step_fetched hrun hin).trans (exec_eq _ _)⟩
    · exact ⟨_, step_past_end hrun hin⟩
  · exact ⟨_, step_haltedWaiting hrun⟩

theorem stepCase_of_step {s t : State} (h : step s = .next t) : StepCase s t := by
  cases hrun : s.run with
  | running =>
    by_cases hin : s.pc.toNat + 2 ≤ 4096
    · exact .executed hrun hin ((step_fetched hrun hin).symm.trans h)
    · rw [step_past_end hrun hin] at h
      cases h
      exact .fetchFault hrun hin
  | haltedWaiting target =>
    by_cases hsignal : s.resumeLine.head? = some true
    · rw [step_resumes hrun hsignal] at h
      cases h
      split
      · next hodd => exact .resumeFault hrun hsignal hodd
      · next heven => exact .resumes hrun hsignal heven
    · rw [step_waits hrun hsignal] at h
      cases h
      exact .waits hrun hsignal
  | terminated =>
    rw [step_terminated hrun] at h
    cases h
  | faulted e pc ac =>
    rw [step_faulted hrun] at h
    cases h

theorem step_ne_next_of_ended {s : State} (h : s.ended = true) (t : State) : step s ≠ .next t := by
  intro hstep
  unfold State.ended at h
  cases stepCase_of_step hstep with
  | executed hrun | fetchFault hrun | waits hrun | resumeFault hrun | resumes hrun =>
    rw [hrun] at h
    cases h

/-! ### Errors of a step (R121 to R127) -/

/-- The fetch writes PC and the resume line, which no error of an instruction depends on. -/
theorem instrError_fetchedState (s : State) (i : Instr) : instrError (fetchedState s) i = instrError s i := by
  cases i <;> rfl

/-- What the statement asks of the state after a step, of the error the rules give, if any. -/
def ReportsError (s t : State) : Option CpuError → Prop
  | some e => t.run = .faulted e (BitVec.ofNat 13 (faultPc s)) s.ac ∧ t.ac = s.ac
  | none => t.NotFaulted

theorem faultPc_fetched {s : State} (hrun : s.run = .running) (hin : s.pc.toNat + 2 ≤ 4096) :
    faultPc s = s.pc.toNat + 2 := if_pos ⟨hrun, hin⟩

theorem faultPc_not_fetched {s : State} (h : ¬ (s.run = .running ∧ s.pc.toNat + 2 ≤ 4096)) :
    BitVec.ofNat 13 (faultPc s) = s.pc := by
  rw [faultPc, if_neg h, BitVec.ofNat_toNat, BitVec.setWidth_eq]

theorem runAfter_running_notFaulted (i : Instr) (e : CpuError) (pc : PcBits) (ac : Bits12) :
    runAfter .running i ≠ .faulted e pc ac := by
  cases i <;> exact nofun

theorem reportsError_executed {s t : State} (hrun : s.run = .running) (hin : s.pc.toNat + 2 ≤ 4096)
    (hexec : exec (fetchedInstr s) (fetchedState s) = .next t) :
    ReportsError s t (instrError s (fetchedInstr s)) := by
  rw [← instrError_fetchedState]
  cases herror : instrError (fetchedState s) (fetchedInstr s) with
  | some e =>
    rw [exec_of_error herror] at hexec
    cases hexec
    exact ⟨by rw [faultPc_fetched hrun hin]; rfl, rfl⟩
  | none =>
    rw [exec_of_no_error herror] at hexec
    cases hexec
    intro e pc ac
    rw [completed_run, show (fetchedState s).run = .running from hrun]
    exact runAfter_running_notFaulted _ e pc ac

theorem stepError_fetched {s : State} (hrun : s.run = .running) (hin : s.pc.toNat + 2 ≤ 4096) :
    stepError s = instrError s (fetchedInstr s) := by
  simp only [stepError, hrun]
  rw [if_neg (by omega)]

theorem stepError_past_end {s : State} (hrun : s.run = .running) (hpast : ¬ s.pc.toNat + 2 ≤ 4096) :
    stepError s = some (.outOfRange s.pc.toNat) := by
  simp only [stepError, hrun]
  rw [if_pos (by omega)]

theorem stepError_waits {s : State} {target : Bits12} (hrun : s.run = .haltedWaiting target)
    (hsignal : s.resumeLine.head? ≠ some true) : stepError s = none := by
  simp only [stepError, hrun]
  rw [if_neg hsignal]

theorem stepError_resumes {s : State} {target : Bits12} (hrun : s.run = .haltedWaiting target)
    (hsignal : s.resumeLine.head? = some true) : stepError s = targetError target.toNat := by
  simp only [stepError, hrun]
  rw [if_pos hsignal]

theorem not_running_of_haltedWaiting {s : State} {target : Bits12} (hrun : s.run = .haltedWaiting target) :
    ¬ (s.run = .running ∧ s.pc.toNat + 2 ≤ 4096) := by
  rw [hrun]
  exact nofun

theorem reportsError_of_stepCase {s t : State} (h : StepCase s t) : ReportsError s t (stepError s) := by
  cases h with
  | executed hrun hin hexec =>
    rw [stepError_fetched hrun hin]
    exact reportsError_executed hrun hin hexec
  | fetchFault hrun hpast =>
    rw [stepError_past_end hrun hpast]
    exact ⟨by rw [faultPc_not_fetched fun h => hpast h.2]; rfl, rfl⟩
  | waits hrun hsignal =>
    rw [stepError_waits hrun hsignal]
    intro e pc ac
    rw [State.tick_run, hrun]
    exact nofun
  | resumeFault hrun hsignal hodd =>
    rw [stepError_resumes hrun hsignal, targetError, if_pos hodd]
    exact ⟨by rw [faultPc_not_fetched (not_running_of_haltedWaiting hrun)]; rfl, rfl⟩
  | resumes hrun hsignal heven =>
    rw [stepError_resumes hrun hsignal, targetError, if_neg heven]
    exact nofun

/-! ### Independence of AC (R16) -/

theorem instrError_of_not_readsAc {i : Instr} (hi : readsAc i = false) (s : State) (x : Bits12) :
    instrError { s with ac := x } i = instrError s i := by
  cases i with
  | jz | jn => cases hi
  | _ => rfl

theorem inputAtFault_with_ac (s : State) (i : Instr) (x : Bits12) :
    inputAtFault { s with ac := x } i = inputAtFault s i := by
  cases i <;> rfl

/-- An instruction that does not read AC writes it independently of it, or leaves it as it was; and does the
same otherwise. -/
theorem completed_of_not_readsAc {i : Instr} (hi : readsAc i = false) (s : State) (x : Bits12) :
    completed { s with ac := x } i = completed s i ∨
      ((completed s i).ac = s.ac ∧ completed { s with ac := x } i = { completed s i with ac := x }) := by
  cases i with
  | lv | ld => exact .inl rfl
  | jmp | sc | rs | hm | os => exact .inr ⟨rfl, rfl⟩
  | gd =>
    simp only [completed, gdCompleted]
    split
    · exact .inr ⟨rfl, rfl⟩
    · split
      · exact .inl rfl
      · exact .inr ⟨rfl, rfl⟩
  | _ => cases hi

/-- Two ends of one instruction that differ at most in AC, where the first began with AC `a` and the second
with `x`. -/
def AgreeButAc (a x : Bits12) (t u : State) : Prop :=
  u.pc = t.pc ∧ u.mem = t.mem ∧ u.out = t.out ∧ u.input = t.input ∧ runWithoutAc u.run = runWithoutAc t.run ∧
    (u.ac = t.ac ∨ (t.ac = a ∧ u.ac = x))

theorem agreeButAc_of_not_readsAc {i : Instr} {s t u : State} {x : Bits12} (hi : readsAc i = false)
    (ht : exec i s = .next t) (hu : exec i { s with ac := x } = .next u) : AgreeButAc s.ac x t u := by
  have hsame := instrError_of_not_readsAc hi s x
  cases herror : instrError s i with
  | some e =>
    rw [exec_of_error herror] at ht
    rw [exec_of_error (hsame.trans herror), inputAtFault_with_ac] at hu
    cases ht
    cases hu
    exact ⟨rfl, rfl, rfl, rfl, rfl, .inr ⟨rfl, rfl⟩⟩
  | none =>
    rw [exec_of_no_error herror] at ht
    rw [exec_of_no_error (hsame.trans herror)] at hu
    cases ht
    cases hu
    rcases completed_of_not_readsAc hi s x with hequal | ⟨hkept, hother⟩
    · rw [hequal]
      exact ⟨rfl, rfl, rfl, rfl, rfl, .inl rfl⟩
    · rw [hother]
      exact ⟨rfl, rfl, rfl, rfl, rfl, .inr ⟨hkept, rfl⟩⟩

end Sys2Proof.Machine

namespace Sys2Proof.Proofs

open Sys2Proof.Machine Sys2Proof.Claims

/-- Settles O39: a fault leaves every register, so AC is written and read in the effects alone. -/
theorem acReadersAndWriters : Obligations.AcReadersAndWriters := by
  intro i s x
  refine ⟨_, _, exec_eq i s, exec_eq i _, fun hi => ?writers, fun e pc ac hrun hfault => ?faults,
    fun hi => agreeButAc_of_not_readsAc hi (exec_eq i s) (exec_eq i _)⟩
  case writers =>
    cases instrError s i with
    | some e => rfl
    | none => exact (frame_completed s i).ac hi
  case faults =>
    cases herror : instrError s i with
    | some e => rfl
    | none =>
      rw [herror] at hfault
      rw [endOf, completed_run, hrun] at hfault
      exact absurd hfault (runAfter_running_notFaulted i e pc ac)

/-- Settles O40: by the error entered, which keeps all but the run state (and GD's input), or the effect. -/
theorem writersOfEachState : Obligations.WritersOfEachState := by
  intro i s
  cases herror : instrError s i with
  | some e =>
    exact ⟨_, exec_of_error herror, rfl, rfl, fun _ _ => rfl, fun _ => rfl, fun _ => rfl,
      fun hi => inputAtFault_eq hi s, .inr (.inr (.inr ⟨e, rfl⟩))⟩
  | none =>
    have hframe := frame_completed s i
    refine ⟨_, exec_of_no_error herror, hframe.gdMode, hframe.resumeLine, fun hi a => by rw [hframe.mem hi],
      hframe.pc, hframe.out, hframe.input, ?_⟩
    rw [hframe.run]
    cases i with
    | hm a => exact .inr (.inl ⟨a, rfl, rfl⟩)
    | os n => exact .inr (.inr (.inl ⟨by rw [instrError_os_eq_none herror], rfl⟩))
    | _ => exact .inl rfl

/-- Settles O37, by the ends of a step. -/
theorem errorsAreExactlyTheListed : Obligations.ErrorsAreExactlyTheListed := by
  intro s hs
  obtain ⟨t, hstep⟩ := step_answers hs
  have hreport := reportsError_of_stepCase (stepCase_of_step hstep)
  refine ⟨t, hstep, ?_⟩
  cases hsome : stepError s with
  | some e => rw [hsome] at hreport; exact hreport
  | none => rw [hsome] at hreport; exact hreport

/-- Settles O41, by the ends of a step. -/
theorem runStateTransitions : Obligations.RunStateTransitions := by
  refine ⟨fun s t hstep => ?_, fun s hended => step_ne_next_of_ended hended⟩
  cases stepCase_of_step hstep with
  | executed hrun hin hexec =>
    have hterminated := exec_terminated_iff (s := fetchedState s) hrun hexec
    have hwaiting := fun a => exec_haltedWaiting_iff (s := fetchedState s) (a := a) hrun hexec
    simp [hrun, hin, hterminated, hwaiting]
  | fetchFault hrun hpast => simp [hrun, hpast]
  | waits hrun hsignal => simp [hrun, hsignal]
  | resumeFault hrun hsignal hodd => simp [hrun, hsignal]
  | resumes hrun hsignal heven => simp [hrun, hsignal]

end Sys2Proof.Proofs
end

section
/-! PROOFS. The invariant of a run (R18, R28, R126, and the canonical form of memory): reset and a launch
establish it, every step keeps it. With it the loader (R135, R136), the waits (R132), a stray resume signal
(R34) and the step of a decoded instruction (R69). -/

namespace Sys2Proof.Machine

open Sys2Proof.Claims

/-! ### PC even and at most 4096 (R18) -/

theorem State.pcOk.of_pc_eq {s t : State} (hs : s.pcOk) (h : t.pc = s.pc) : t.pcOk := by
  rw [State.pcOk, h]
  exact hs

theorem pcOk_putPc (s : State) {v : Nat} (heven : v % 2 = 0) (hle : v ≤ 4096) : (s.putPc v).pcOk := by
  rw [State.pcOk, putPc_toNat s hle]
  exact ⟨heven, hle⟩

theorem targetError_eq_none_iff {v : Nat} : targetError v = none ↔ v % 2 = 0 := by
  unfold targetError
  split <;> simp <;> omega

theorem rangeThen_eq_none_iff {a : Bits12} {rest : Option CpuError} :
    rangeThen a rest = none ↔ a ≠ 4095 ∧ rest = none := by
  unfold rangeThen
  split
  · next haddr => simp [haddr]
  · next haddr => exact ⟨fun hrest => ⟨haddr, hrest⟩, And.right⟩

/-- The PC target of an instruction that raised no error is even; a 12-bit address is below 4096. -/
theorem pcOk_putPc_addr (s : State) {a : Bits12} (h : targetError a.toNat = none) : (s.putPc a.toNat).pcOk :=
  pcOk_putPc s (targetError_eq_none_iff.mp h) (Nat.le_of_lt a.isLt)

theorem pcOk_branch {s : State} (hs : s.pcOk) {c : Prop} [Decidable c] {a : Bits12}
    (h : (if c then targetError a.toNat else none) = none) : (if c then s.putPc a.toNat else s).pcOk := by
  split
  · next hc =>
    rw [if_pos hc] at h
    exact pcOk_putPc_addr s h
  · exact hs

theorem pcOk_sc {s : State} {a : Bits12} (h : instrError s (.sc a) = none) : (completed s (.sc a)).pcOk := by
  obtain ⟨hrange, htarget⟩ := rangeThen_eq_none_iff.mp h
  exact pcOk_putPc _ (targetError_eq_none_iff.mp htarget) (word_fits_of_ne_4095 hrange)

/-- The slot's high byte is at most 15, so the address RS reads from it is below 4096. -/
theorem pcOk_rs {s : State} {a : Bits12} (h : instrError s (.rs a) = none) : (completed s (.rs a)).pcOk := by
  obtain ⟨_, hchecks⟩ := rangeThen_eq_none_iff.mp h
  by_cases hhigh : (s.mem.read a.toNat).toNat > 0xF
  · rw [if_pos hhigh] at hchecks
    cases hchecks
  · rw [if_neg hhigh] at hchecks
    refine pcOk_putPc _ (targetError_eq_none_iff.mp hchecks) ?_
    unfold memWord
    omega

/-- GD's wait gives the fetch's increment back, so PC stays in range when it was fetched past. -/
theorem pcOk_unfetch {s : State} (hs : s.pcOk) (hpast : 2 ≤ s.pc.toNat) : s.unfetch.pcOk := by
  obtain ⟨heven, hle⟩ := hs
  unfold Config.memSize at hle
  have hpc : s.unfetch.pc.toNat = s.pc.toNat - 2 := by
    rw [State.unfetch_pc]
    bv_omega
  rw [State.pcOk, hpc]
  unfold Config.memSize
  omega

theorem pcOk_gd {s : State} {x : Bits12} (hs : s.pcOk) (hpast : 2 ≤ s.pc.toNat)
    (h : instrError s (.gd x) = none) : (gdCompleted s).pcOk := by
  rcases gdCompleted_cases s with ⟨_, hgd⟩ | ⟨v, rest, hinput, ⟨_, hgd⟩ | ⟨hmode, hgd⟩⟩
  · rw [hgd]
    exact pcOk_unfetch hs hpast
  · rw [hgd]
    exact hs.of_pc_eq (State.setAc_pc _ _)
  · simp only [instrError, hmode, hinput] at h
    rw [hgd]
    exact pcOk_putPc _ (targetError_eq_none_iff.mp h) (Nat.le_succ_of_le (awaitInput_le hinput))

theorem pcOk_completed {s : State} {i : Instr} (hs : s.pcOk) (hpast : 2 ≤ s.pc.toNat)
    (h : instrError s i = none) : (completed s i).pcOk := by
  cases i with
  | jmp a => exact pcOk_putPc_addr s h
  | jz a => exact pcOk_branch hs h
  | jn a => exact pcOk_branch hs h
  | sc a => exact pcOk_sc h
  | rs a => exact pcOk_rs h
  | gd x => exact pcOk_gd hs hpast h
  | lv | add | sub | mul | div | ld | mm | hm | pd | os => exact hs.of_pc_eq ((frame_completed s _).pc rfl)

/-! ### Memory canonical, emitted values in the range of AC (R28) -/

theorem wf_completed {s : State} {i : Instr} (hs : s.mem.wf = true) (h : instrError s i = none) :
    (completed s i).mem.wf = true := by
  by_cases hi : writesMem i = false
  · rw [(frame_completed s i).mem hi]
    exact hs
  cases i with
  | mm a | sc a =>
    obtain ⟨hrange, _⟩ := rangeThen_eq_none_iff.mp h
    exact Memory.wf_putWord hs (word_fits_of_ne_4095 hrange) _
  | _ => exact absurd rfl hi

theorem outOk_completed {s : State} (hs : s.outOk) (i : Instr) : (completed s i).outOk := by
  by_cases hi : emits i = false
  · rw [State.outOk, (frame_completed s i).out hi]
    exact hs
  cases i with
  | pd x =>
    intro v hv
    rcases List.mem_append.mp hv with hold | hnew
    · exact hs v hold
    · rw [List.mem_singleton.mp hnew]
      exact toInt_mem s.ac
  | _ => exact absurd rfl hi

/-! ### The invariant -/

theorem State.NotFaulted.reportOk {s : State} (h : s.NotFaulted) : s.reportOk :=
  fun e pc ac hfault => absurd hfault (h e pc ac)

theorem notFaulted_completed {s : State} (hrun : s.run = .running) (i : Instr) : (completed s i).NotFaulted := by
  intro e pc ac
  rw [completed_run, hrun]
  exact runAfter_running_notFaulted i e pc ac

theorem inv_completed {s : State} {i : Instr} (hs : s.Inv) (hrun : s.run = .running) (hpast : 2 ≤ s.pc.toNat)
    (h : instrError s i = none) : (completed s i).Inv :=
  { pc := pcOk_completed hs.pc hpast h
    mem := wf_completed hs.mem h
    out := outOk_completed hs.out i
    report := (notFaulted_completed hrun i).reportOk }

/-- Fault entry keeps all but the run state, whose report it makes of PC and AC (R126). -/
theorem inv_faultedWith {s : State} (hs : s.Inv) (e : CpuError) : (faultedWith s e).Inv :=
  { pc := hs.pc, mem := hs.mem, out := hs.out
    report := fun _ _ _ hfault => by cases hfault; exact ⟨rfl, rfl⟩ }

theorem inv_setInput {s : State} (hs : s.Inv) (rest : List Text) : (s.setInput rest).Inv :=
  { pc := hs.pc, mem := hs.mem, out := hs.out, report := hs.report }

theorem inv_tick {s : State} (hs : s.Inv) : s.tick.Inv :=
  { pc := hs.pc, mem := hs.mem, out := hs.out, report := hs.report }

theorem inv_fetchedState {s : State} (hs : s.Inv) (hrun : s.run = .running) (hin : s.pc.toNat + 2 ≤ 4096) :
    (fetchedState s).Inv :=
  { mem := hs.mem, out := hs.out
    pc := by
      obtain ⟨heven, _⟩ := hs.pc
      exact pcOk_putPc s.tick (by omega) hin
    report := by
      intro e pc ac hfault
      cases hrun.symm.trans hfault }

theorem inv_executed {s t : State} {i : Instr} (hs : s.Inv) (hrun : s.run = .running) (hpast : 2 ≤ s.pc.toNat)
    (h : exec i s = .next t) : t.Inv := by
  cases herror : instrError s i with
  | some e =>
    rw [exec_of_error herror] at h
    cases h
    exact inv_faultedWith (inv_setInput hs _) e
  | none =>
    rw [exec_of_no_error herror] at h
    cases h
    exact inv_completed hs hrun hpast herror

theorem inv_of_stepCase {s t : State} (hs : s.Inv) (h : StepCase s t) : t.Inv := by
  cases h with
  | executed hrun hin hexec =>
    have hpast : 2 ≤ (fetchedState s).pc.toNat := by
      rw [show (fetchedState s).pc.toNat = s.pc.toNat + 2 from putPc_toNat s hin]
      omega
    exact inv_executed (inv_fetchedState hs hrun hin) hrun hpast hexec
  | fetchFault hrun hpast => exact inv_faultedWith (inv_tick hs) _
  | waits hrun hsignal => exact inv_tick hs
  | resumeFault hrun hsignal hodd => exact inv_faultedWith (inv_tick hs) _
  | @resumes target hrun hsignal heven =>
    exact { mem := hs.mem, out := hs.out
            pc := pcOk_putPc_addr s.tick (targetError_eq_none_iff.mpr (by omega))
            report := State.NotFaulted.reportOk nofun }

/-! ### The loader (R135, R136) -/

/-- A block store's bytes, and its frame. -/
theorem read_writeBytes {m : Memory} (hm : m.wf = true) {a : Nat} {bs : List Byte}
    (ha : a + bs.length ≤ 4096) (x : Nat) :
    (m.writeBytes a bs).read x = if a ≤ x ∧ x < a + bs.length then bs.getD (x - a) 0 else m.read x := by
  induction bs generalizing m a with
  | nil => rw [Memory.writeBytes, if_neg (by simp)]
  | cons b bs ih =>
    rw [List.length_cons] at ha
    have hwrite : (m.write a b).wf = true := Memory.wf_write hm (by unfold Config.memSize; omega) b
    rw [Memory.writeBytes, ih hwrite (by omega), Memory.read_write hm, List.length_cons]
    by_cases hfirst : x = a
    · subst hfirst
      rw [if_neg (by omega), if_pos rfl, if_pos (by omega), Nat.sub_self, List.getD_cons_zero]
    · rw [if_neg hfirst]
      by_cases hin : a + 1 ≤ x ∧ x < a + 1 + bs.length
      · rw [if_pos hin, if_pos (by omega), show x - a = x - (a + 1) + 1 by omega, List.getD_cons_succ]
      · rw [if_neg hin, if_neg (by omega)]

theorem bodyFits_iff (img : Image) : img.bodyFits = true ↔ img.body.length = 2 * img.length.toNat := by
  rw [Image.bodyFits, beq_iff_eq]

/-- A load of an image whose body fits its header, by the one check it makes (R136). -/
theorem load_of_bodyFits {img : Image} (h : img.bodyFits = true) (m : Memory) :
    load img m =
      if img.origin.toNat + 2 * img.length.toNat ≥ 4096 then
        .error (.capacityExceeded img.origin.toNat (2 * img.length.toNat)
          (img.origin.toNat + 2 * img.length.toNat))
      else .ok (m.writeBytes img.origin.toNat img.body) := by
  rw [load, h]
  rfl

/-- All that is known of a load that succeeds. -/
theorem load_eq_ok_iff {img : Image} {m m' : Memory} :
    load img m = .ok m' ↔ img.body.length = 2 * img.length.toNat ∧
      img.origin.toNat + 2 * img.length.toNat < 4096 ∧ m' = m.writeBytes img.origin.toNat img.body := by
  rw [← bodyFits_iff]
  cases hfits : img.bodyFits with
  | false => simp [load, hfits]
  | true =>
    rw [load_of_bodyFits hfits]
    split
    · next hfar => simp [show ¬ img.origin.toNat + 2 * img.length.toNat < 4096 by omega]
    · next hnear => simp [show img.origin.toNat + 2 * img.length.toNat < 4096 by omega, eq_comm]

/-! ### The launch (R134) -/

theorem launch_of_load_error {img : Image} {p : LaunchParams} {e : LoadError}
    (h : load img p.memInit = .error e) : launch img p = .error e := by
  rw [launch, h]
  rfl

/-- The state a run starts in, over the loaded memory. -/
def startState (img : Image) (p : LaunchParams) (m : Memory) : State :=
  { ac := p.acInit, pc := BitVec.ofNat 13 (entryOf img p), mem := m, run := .running, out := [],
    gdMode := p.gdMode, input := p.input, resumeLine := p.resumeLine }

theorem launch_of_even {img : Image} {p : LaunchParams} {m : Memory} (hload : load img p.memInit = .ok m)
    (heven : ¬ entryOf img p % 2 = 1) : launch img p = .ok (startState img p m) := by
  simp only [launch, hload, heven, decide_false]
  rfl

theorem launch_of_odd {img : Image} {p : LaunchParams} {m : Memory} (hload : load img p.memInit = .ok m)
    (hodd : entryOf img p % 2 = 1) :
    ∃ s, launch img p = .ok s ∧
      s.run = .faulted (.invalidAddress (entryOf img p)) (BitVec.ofNat 13 (entryOf img p)) p.acInit := by
  simp only [launch, hload, hodd, decide_true]
  exact ⟨_, rfl, rfl⟩

/-- An image that loads begins below 4096, and a given entry has 12 bits. -/
theorem entryOf_le {img : Image} {p : LaunchParams} (h : img.origin.toNat < 4096) : entryOf img p ≤ 4096 := by
  unfold entryOf
  split
  · next e _ => exact Nat.le_of_lt e.isLt
  · exact Nat.le_of_lt h

theorem inv_startState {img : Image} {p : LaunchParams} {m : Memory} (hmem : p.memInit.wf = true)
    (heven : entryOf img p % 2 = 0) (hload : load img p.memInit = .ok m) : (startState img p m).Inv := by
  obtain ⟨_, hnear, _⟩ := load_eq_ok_iff.mp hload
  exact { mem := load_wf hmem hload
          pc := pcOk_putPc (startState img p m) heven (entryOf_le (by omega))
          out := by intro v hv; cases hv
          report := State.NotFaulted.reportOk nofun }

/-! ### Waits (R132) and stray resume signals (R34) -/

/-- The CPU waits for the host for `n` steps: in HALTED_WAITING with no signal in them, or at a GD with
malformed strings only. -/
def WaitsFor (n : Nat) (s : State) : Prop :=
  ((∃ t, s.run = .haltedWaiting t) ∧ ∀ b ∈ s.resumeLine.take n, b = false) ∨
  (s.run = .running ∧ s.pc.toNat + 2 ≤ 4096 ∧ (∃ x, fetchedInstr s = .gd x) ∧
    ∀ b ∈ s.input, parseInput b = none)

theorem head_of_take_succ {l : List Bool} {n : Nat} (h : ∀ b ∈ l.take (n + 1), b = false) :
    l.head? ≠ some true ∧ ∀ b ∈ l.tail.take n, b = false := by
  cases l with
  | nil => simp
  | cons b l => simpa using h

/-- A waiting CPU's step moves the model's own resume line on, and nothing else. -/
theorem step_of_waitsFor {s : State} {n : Nat} (h : WaitsFor (n + 1) s) :
    step s = .next s.tick ∧ WaitsFor n s.tick := by
  rcases h with ⟨⟨t, hrun⟩, hline⟩ | ⟨hrun, hin, ⟨x, hinstr⟩, hinput⟩
  · obtain ⟨hsignal, htail⟩ := head_of_take_succ hline
    exact ⟨step_waits hrun hsignal, .inl ⟨⟨t, hrun⟩, htail⟩⟩
  · exact ⟨step_gd_waits hrun hin hinstr hinput, .inr ⟨hrun, hin, ⟨x, hinstr⟩, hinput⟩⟩

theorem run_of_waitsFor {s : State} {n : Nat} (h : WaitsFor n s) :
    Sys2Proof.core.run n s = .next { s with resumeLine := s.resumeLine.drop n } := by
  induction n generalizing s with
  | zero => rfl
  | succ n ih =>
    obtain ⟨hstep, hnext⟩ := step_of_waitsFor h
    rw [run_succ_of_next hstep, ih hnext, State.tick_resumeLine, List.drop_tail]
    rfl

/-- Outside HALTED_WAITING a step looks at the resume line's coming entry for nothing. -/
theorem step_eq_of_tail_eq {s t : State} (hs : ∀ a, s.run ≠ .haltedWaiting a)
    (h : t = { s with resumeLine := t.resumeLine }) (htail : t.resumeLine.tail = s.resumeLine.tail) :
    step t = step s := by
  have hrun_eq : t.run = s.run := by rw [h]
  have htick : t.tick = s.tick := by rw [h, State.tick, htail]; rfl
  cases hrun : s.run with
  | running =>
    rw [step_running (hrun_eq.trans hrun), step_running hrun, htick]
    rw [h]
  | haltedWaiting a => exact absurd hrun (hs a)
  | terminated => rw [step_terminated (hrun_eq.trans hrun), step_terminated hrun]
  | faulted e pc ac => rw [step_faulted (hrun_eq.trans hrun), step_faulted hrun]

end Sys2Proof.Machine

namespace Sys2Proof.Proofs

open Sys2Proof.Machine Sys2Proof.Claims

/-- Settles O43, by the ends of a step. -/
theorem everyStepKeepsInv : Obligations.EveryStepKeepsInv :=
  fun _ _ hs hstep => inv_of_stepCase hs (stepCase_of_step hstep)

/-- Settles O42. -/
theorem invAtReset : Obligations.InvAtReset :=
  { pc := ⟨rfl, Nat.zero_le _⟩
    mem := reset_mem_wf
    out := by intro v hv; cases hv
    report := State.NotFaulted.reportOk nofun }

/-- Settles O44. -/
theorem resetState : Obligations.ResetState := ⟨rfl, rfl, rfl, rfl⟩

/-- Settles O35: the decoded instruction is the one the fetched word names; the type of the operand makes it
well-formed, so that hypothesis is not used. -/
theorem stepRunsTheDecodedInstruction : Obligations.StepRunsTheDecodedInstruction := by
  intro s i rest hrun hin hdecode _
  have hinstr : decode [s.mem.read s.pc.toNat, s.mem.read (s.pc.toNat + 1)] = .ok (fetchedInstr s, []) := rfl
  cases hinstr.symm.trans hdecode
  exact step_fetched hrun hin

/-- Settles O36. -/
theorem oddPcIsNeverWritten : Obligations.OddPcIsNeverWritten := by
  intro v s hle
  split
  · next hodd => rw [setPc_eq, if_pos hodd]
  · next heven =>
    refine ⟨BitVec.ofNat 13 v, putPc_toNat s hle, ?_⟩
    rw [setPc_eq, if_neg heven]
    rfl

/-- Settles O45, by induction on the number of steps. -/
theorem waitsKeepTheState : Obligations.WaitsKeepTheState := fun _ _ h => run_of_waitsFor h

/-- Settles O46. -/
theorem strayResumeIgnored : Obligations.StrayResumeIgnored :=
  fun _ hs => ⟨resume_eq_self hs, fun _ _ _ => step_eq_of_tail_eq hs rfl rfl⟩

/-- Settles O47: a load that succeeds is one block store inside memory. -/
theorem loadCopiesTheBody : Obligations.LoadCopiesTheBody := by
  intro img m m' hmem hload
  refine ⟨load_wf hmem hload, fun a => ?_⟩
  obtain ⟨hlength, hnear, rfl⟩ := load_eq_ok_iff.mp hload
  rw [read_writeBytes hmem (by omega), hlength]

/-- Settles O48, by the load and by the entry's parity. -/
theorem launchStartsTheRun : Obligations.LaunchStartsTheRun := by
  intro img p
  split
  · next e hload => exact launch_of_load_error hload
  · next m hload =>
    split
    · next hodd =>
      obtain ⟨s, hlaunch, hrun⟩ := launch_of_odd hload hodd
      exact ⟨s, hlaunch, hrun, step_ne_next_of_faulted hrun⟩
    · next heven => exact launch_of_even hload heven

/-- Settles O49: the start is in the invariant, and every step keeps it. -/
theorem launchedRunsKeepInv : Obligations.LaunchedRunsKeepInv := by
  intro img p s t n hmem heven hlaunch hrun
  cases hload : load img p.memInit with
  | error e =>
    rw [launch_of_load_error hload] at hlaunch
    cases hlaunch
  | ok m =>
    rw [launch_of_even hload (by omega)] at hlaunch
    cases hlaunch
    exact run_keeps everyStepKeepsInv (inv_startState hmem heven hload) hrun

end Sys2Proof.Proofs
end

section
/-! PROOFS. Family 45_assembler.md: what pass 1 keeps of its symbol table, length and records (R107 to R110),
when pass 2 resolves them (R112), the form of the image (R113 to R116), and the mnemonics (R64, R102). -/

namespace Sys2Proof.Machine

open Sys2Proof.Claims

/-! ### Success of a sequence of steps -/

theorem except_bind_eq_ok_iff {ε α β : Type} {x : Except ε α} {f : α → Except ε β} {b : β} :
    x >>= f = .ok b ↔ ∃ a, x = .ok a ∧ f a = .ok b := by
  cases x <;> simp [bind, Except.bind]

theorem declare_eq_ok_iff {p q : Pass1} {name : Text} {addr line : Nat} :
    declare p name addr line = .ok q ↔
      name ∉ p.symtab.map Prod.fst ∧ q = { p with symtab := p.symtab ++ [(name, addr)] } := by
  rw [← SymTab.find_eq_none_iff, declare]
  cases p.symtab.find name <;> simp [eq_comm]

/-- R110: a word fits when it ends before address 4096. -/
theorem reserve_eq_ok_iff {p q : Pass1} {kind : WordKind} {arg : Arg} {line : Nat} :
    reserve p kind arg line = .ok q ↔ p.origin + p.length + 2 < 4096 ∧
      q = { p with
        records := p.records ++ [.word kind arg line (p.origin + p.length)]
        length := p.length + 2 } := by
  unfold reserve Config.memSize
  split
  · next hfull => simp [show ¬ p.origin + p.length + 2 < 4096 by omega]
  · next hfits => simp [show p.origin + p.length + 2 < 4096 by omega, eq_comm]

/-! ### What one line does to the scan (R103 to R106, R108) -/

/-- The ends of a line that is accepted once the origin is set. -/
inductive LineEnd (sh : Shorthand) (line : Nat) (p : Pass1) : Scan → Prop where
  | ignored : LineEnd sh line p (.going p)
  | label {name : Text} {q : Pass1} (hname : isName sh name = true)
      (hdecl : declare p name (p.origin + p.length) line = .ok q) : LineEnd sh line p (.going q)
  | constant {name : Text} {a : Arg} {q r : Pass1} (hname : isName sh name = true)
      (hdecl : declare p name (p.origin + p.length) line = .ok q)
      (hreserve : reserve q .const a line = .ok r) : LineEnd sh line p (.going r)
  | statement {op : Opcode} {a : Arg} {q : Pass1} (hreserve : reserve p (.instr op) a line = .ok q) :
      LineEnd sh line p (.going q)
  | endMark (n : Option Text) : LineEnd sh line p
      (.ended { p with records := p.records ++ [.endMark n line (p.origin + p.length)] })

theorem lineEnd_of_scanLine {sh : Shorthand} {line : Nat} {ts : List Text} {p : Pass1} {st : Scan}
    (h : scanLine sh line ts p = .ok st) : LineEnd sh line p st := by
  obtain ⟨c, hclass, h⟩ := except_bind_eq_ok_iff.mp h
  have hsays := classSays_classify sh line ts
  rw [hclass] at hsays
  cases c with
  | ignored =>
    cases h
    exact .ignored
  | origin arg => cases h
  | label name =>
    obtain ⟨_, hname⟩ := hsays
    obtain ⟨q, hdecl, hend⟩ := except_bind_eq_ok_iff.mp h
    cases hend
    exact .label hname hdecl
  | constant name arg =>
    obtain ⟨m, hparse, h⟩ := except_bind_eq_ok_iff.mp h
    obtain ⟨rfl, hname⟩ := parseName_eq_ok_iff.mp hparse
    obtain ⟨a, _, h⟩ := except_bind_eq_ok_iff.mp h
    obtain ⟨q, hdecl, h⟩ := except_bind_eq_ok_iff.mp h
    obtain ⟨r, hreserve, hend⟩ := except_bind_eq_ok_iff.mp h
    cases hend
    exact .constant hname hdecl hreserve
  | statement op arg =>
    obtain ⟨a, _, h⟩ := except_bind_eq_ok_iff.mp h
    obtain ⟨q, hreserve, hend⟩ := except_bind_eq_ok_iff.mp h
    cases hend
    exact .statement hreserve
  | endMark name =>
    obtain ⟨n, _, hend⟩ := except_bind_eq_ok_iff.mp h
    cases hend
    exact .endMark n

theorem parseArg_lit_le {sh : Shorthand} {line : Nat} {t : Text} {v : Nat}
    (h : parseArg sh line t = .ok (.lit v)) : v ≤ 4095 := by
  unfold parseArg at h
  split at h
  · split at h
    · cases h
    · split at h
      · next hle => cases h; exact hle
      · cases h
  · split at h <;> cases h

/-- The origin is a literal, range-checked like any other (R99, R104). -/
theorem parseOrigin_le {sh : Shorthand} {line : Nat} {t : Text} {v : Nat}
    (h : parseOrigin sh line t = .ok v) : v ≤ 4095 := by
  unfold parseOrigin at h
  split at h
  · next hlit => cases h; exact parseArg_lit_le hlit
  · cases h
  · cases h

/-- The ends of a line that is accepted while the origin is unset (R104). -/
theorem scanFirst_cases {sh : Shorthand} {line : Nat} {ts : List Text} {st : Scan}
    (h : scanFirst sh line ts = .ok st) :
    st = .before ∨
      ∃ v, v ≤ 4095 ∧ st = .going { origin := v, length := 0, symtab := [], records := [] } := by
  obtain ⟨c, _, h⟩ := except_bind_eq_ok_iff.mp h
  cases c with
  | ignored => cases h; exact .inl rfl
  | origin arg =>
    obtain ⟨v, horigin, hend⟩ := except_bind_eq_ok_iff.mp h
    cases hend
    exact .inr ⟨v, parseOrigin_le horigin, rfl⟩
  | _ => cases h

/-! ### What every line keeps (R107 to R110) -/

/-- The records that become words of the body. -/
def wordCount : List Record → Nat
  | [] => 0
  | .word _ _ _ _ :: rest => wordCount rest + 1
  | .endMark _ _ _ :: rest => wordCount rest

theorem wordCount_append (records more : List Record) :
    wordCount (records ++ more) = wordCount records + wordCount more := by
  induction records with
  | nil => exact (Nat.zero_add _).symm
  | cons r rest ih => cases r <;> simp only [List.cons_append, wordCount, ih, Nat.add_right_comm]

/-- The invariant of pass 1 once the origin is known. -/
structure Pass1.Wf (sh : Shorthand) (p : Pass1) : Prop where
  names : ∀ name ∈ p.symtab.map Prod.fst, isName sh name = true
  nodup : (p.symtab.map Prod.fst).Nodup
  fits : p.origin + p.length ≤ 4095
  length : p.length = 2 * wordCount p.records
  addrs : ∀ name a, (name, a) ∈ p.symtab → p.origin ≤ a ∧ a ≤ p.origin + p.length

theorem wf_start (sh : Shorthand) {v : Nat} (h : v ≤ 4095) :
    Pass1.Wf sh { origin := v, length := 0, symtab := [], records := [] } :=
  { names := nofun, nodup := List.nodup_nil, fits := h, length := rfl, addrs := nofun }

section
variable {sh : Shorthand} {p q : Pass1} (hp : p.Wf sh)
include hp

/-- A declared name is new, and stands for the address that is reached. -/
theorem wf_declare {name : Text} {line : Nat} (hname : isName sh name = true)
    (h : declare p name (p.origin + p.length) line = .ok q) : q.Wf sh := by
  obtain ⟨hnew, rfl⟩ := declare_eq_ok_iff.mp h
  refine { fits := hp.fits, length := hp.length, names := ?_, nodup := ?_, addrs := ?_ }
  · rw [List.map_append, List.forall_mem_append]
    exact ⟨hp.names, by simpa using hname⟩
  · rw [List.map_append]
    exact hp.nodup.append (List.nodup_singleton name) (by simpa using hnew)
  · intro n a hmem
    rcases List.mem_append.mp hmem with hold | hlast
    · exact hp.addrs n a hold
    · cases List.mem_singleton.mp hlast
      exact ⟨Nat.le_add_right _ _, Nat.le_refl _⟩

theorem wf_reserve {kind : WordKind} {arg : Arg} {line : Nat} (h : reserve p kind arg line = .ok q) :
    q.Wf sh := by
  obtain ⟨hfits, rfl⟩ := reserve_eq_ok_iff.mp h
  have hlength := hp.length
  refine { names := hp.names, nodup := hp.nodup, fits := ?_, length := ?_, addrs := fun n a hmem => ?_ }
  · show p.origin + (p.length + 2) ≤ 4095
    omega
  · show p.length + 2 = 2 * wordCount (p.records ++ _)
    rw [wordCount_append, hlength]
    rfl
  · obtain ⟨hlow, hhigh⟩ := hp.addrs n a hmem
    exact ⟨hlow, Nat.le_trans hhigh (by show _ ≤ p.origin + (p.length + 2); omega)⟩

theorem wf_endMark (n : Option Text) (line addr : Nat) :
    Pass1.Wf sh { p with records := p.records ++ [.endMark n line addr] } :=
  { names := hp.names, nodup := hp.nodup, fits := hp.fits, addrs := hp.addrs
    length := by rw [wordCount_append]; exact hp.length }

end

/-- The invariant of the scan: that of pass 1, wherever the origin is known. -/
def ScanWf (sh : Shorthand) : Scan → Prop
  | .before => True
  | .going p => p.Wf sh
  | .ended p => p.Wf sh

theorem scanWf_of_lineEnd {sh : Shorthand} {line : Nat} {p : Pass1} {st : Scan} (hp : p.Wf sh)
    (h : LineEnd sh line p st) : ScanWf sh st := by
  cases h with
  | ignored => exact hp
  | label hname hdecl => exact wf_declare hp hname hdecl
  | constant hname hdecl hreserve => exact wf_reserve (wf_declare hp hname hdecl) hreserve
  | statement hreserve => exact wf_reserve hp hreserve
  | endMark n => exact wf_endMark hp n _ _

theorem scanWf_of_scanFirst {sh : Shorthand} {line : Nat} {ts : List Text} {st : Scan}
    (h : scanFirst sh line ts = .ok st) : ScanWf sh st := by
  rcases scanFirst_cases h with rfl | ⟨v, hle, rfl⟩
  · trivial
  · exact wf_start sh hle

/-- A scan that ends has kept the invariant line by line. -/
theorem wf_of_scan {sh : Shorthand} {ls : List Text} {line : Nat} {st : Scan} {p : Pass1}
    (hst : ScanWf sh st) (h : scan sh ls line st = .ok p) : p.Wf sh := by
  induction ls generalizing line st with
  | nil =>
    cases st with
    | ended q => cases h; exact hst
    | before => cases h
    | going q => cases h
  | cons l ls ih =>
    cases st with
    | ended q => cases h; exact hst
    | before =>
      simp only [scan] at h
      split at h
      · next hline => exact ih (scanWf_of_scanFirst hline) h
      · cases h
    | going q =>
      simp only [scan] at h
      split at h
      · next hline => exact ih (scanWf_of_lineEnd hst (lineEnd_of_scanLine hline)) h
      · cases h

theorem wf_of_pass1 {sh : Shorthand} {source : Text} {p : Pass1} (h : pass1 sh source = .ok p) : p.Wf sh :=
  wf_of_scan (st := .before) trivial h

/-! ### Resolution (R112) -/

/-- The names an argument refers to. -/
def argNames : Arg → List Text
  | .lit _ => []
  | .sym n => [n]

theorem referencedNames_word (kind : WordKind) (arg : Arg) (line addr : Nat) (rest : List Record) :
    referencedNames (.word kind arg line addr :: rest) = argNames arg ++ referencedNames rest := by
  cases arg <;> rfl

theorem referencedNames_endMark (n : Text) (line addr : Nat) (rest : List Record) :
    referencedNames (.endMark (some n) line addr :: rest) = argNames (.sym n) ++ referencedNames rest := rfl

theorem resolveArg_ok_iff {symtab : SymTab} {line : Nat} {arg : Arg} :
    (∃ v, resolveArg symtab line arg = .ok v) ↔ ∀ n ∈ argNames arg, ∃ a, symtab.find n = some a := by
  cases arg with
  | lit v => simp [resolveArg, argNames]
  | sym n => cases h : symtab.find n <;> simp [resolveArg, argNames, h]

theorem resolveArg_error {symtab : SymTab} {line : Nat} {arg : Arg} {e : AsmError}
    (h : resolveArg symtab line arg = .error e) :
    ∃ n ∈ argNames arg, e = .undeclaredSymbol line n ∧ symtab.find n = none := by
  cases arg with
  | lit v => cases h
  | sym n =>
    refine ⟨n, List.mem_singleton_self n, ?_⟩
    cases hfind : symtab.find n with
    | some a =>
      rw [resolveArg, hfind] at h
      cases h
    | none =>
      rw [resolveArg, hfind] at h
      cases h
      exact ⟨rfl, rfl⟩

theorem resolveRecords_word (symtab : SymTab) (kind : WordKind) (arg : Arg) (line addr : Nat)
    (rest : List Record) :
    resolveRecords symtab (.word kind arg line addr :: rest) =
      resolveArg symtab line arg >>= fun v =>
        resolveRecords symtab rest >>= fun words => .ok (wordOfRecord kind v :: words) := rfl

theorem resolveRecords_endMark (symtab : SymTab) (n : Text) (line addr : Nat) (rest : List Record) :
    resolveRecords symtab (.endMark (some n) line addr :: rest) =
      resolveArg symtab line (.sym n) >>= fun _ => resolveRecords symtab rest := rfl

theorem resolveRecords_ok_iff {symtab : SymTab} {records : List Record} :
    (∃ words, resolveRecords symtab records = .ok words) ↔
      ∀ name ∈ referencedNames records, ∃ a, symtab.find name = some a := by
  induction records with
  | nil => exact ⟨fun _ => nofun, fun _ => ⟨[], rfl⟩⟩
  | cons r rest ih =>
    cases r with
    | word kind arg line addr =>
      rw [referencedNames_word, List.forall_mem_append, ← ih, ← resolveArg_ok_iff (line := line),
        resolveRecords_word]
      simp only [except_bind_eq_ok_iff]
      constructor
      · rintro ⟨_, v, hv, words, hwords, _⟩
        exact ⟨⟨v, hv⟩, words, hwords⟩
      · rintro ⟨⟨v, hv⟩, words, hwords⟩
        exact ⟨_, v, hv, words, hwords, rfl⟩
    | endMark name line addr =>
      cases name with
      | none => exact ih
      | some n =>
        rw [referencedNames_endMark, List.forall_mem_append, ← ih, ← resolveArg_ok_iff (line := line),
          resolveRecords_endMark]
        simp only [except_bind_eq_ok_iff]
        constructor
        · rintro ⟨words, v, hv, hwords⟩
          exact ⟨⟨v, hv⟩, words, hwords⟩
        · rintro ⟨⟨v, hv⟩, words, hwords⟩
          exact ⟨words, v, hv, hwords⟩

/-- Resolution fails at a name that the table lacks, and for nothing else. -/
theorem resolveRecords_error {symtab : SymTab} {records : List Record} {e : AsmError}
    (h : resolveRecords symtab records = .error e) :
    ∃ line name, e = .undeclaredSymbol line name ∧ name ∈ referencedNames records ∧
      symtab.find name = none := by
  induction records with
  | nil => cases h
  | cons r rest ih =>
    cases r with
    | word kind arg line addr =>
      rw [resolveRecords_word] at h
      rw [referencedNames_word]
      obtain harg | ⟨_, _, h⟩ := except_bind_eq_error_iff.mp h
      · obtain ⟨n, hmem, herror, hfind⟩ := resolveArg_error harg
        exact ⟨line, n, herror, List.mem_append_left _ hmem, hfind⟩
      obtain hrest | ⟨_, _, hend⟩ := except_bind_eq_error_iff.mp h
      · obtain ⟨i, n, herror, hmem, hfind⟩ := ih hrest
        exact ⟨i, n, herror, List.mem_append_right _ hmem, hfind⟩
      · cases hend
    | endMark name line addr =>
      cases name with
      | none => exact ih h
      | some n =>
        rw [resolveRecords_endMark] at h
        rw [referencedNames_endMark]
        obtain harg | ⟨_, _, hrest⟩ := except_bind_eq_error_iff.mp h
        · obtain ⟨m, hmem, herror, hfind⟩ := resolveArg_error harg
          exact ⟨line, m, herror, List.mem_append_left _ hmem, hfind⟩
        · obtain ⟨i, m, herror, hmem, hfind⟩ := ih hrest
          exact ⟨i, m, herror, List.mem_append_right _ hmem, hfind⟩

theorem resolveRecords_length {symtab : SymTab} {records : List Record} {words : List Word}
    (h : resolveRecords symtab records = .ok words) : words.length = wordCount records := by
  induction records generalizing words with
  | nil => cases h; rfl
  | cons r rest ih =>
    cases r with
    | word kind arg line addr =>
      rw [resolveRecords_word] at h
      obtain ⟨v, _, h⟩ := except_bind_eq_ok_iff.mp h
      obtain ⟨tail, htail, hend⟩ := except_bind_eq_ok_iff.mp h
      cases hend
      rw [List.length_cons, ih htail, wordCount]
    | endMark name line addr =>
      cases name with
      | none => exact ih h
      | some n =>
        rw [resolveRecords_endMark] at h
        obtain ⟨_, _, hrest⟩ := except_bind_eq_ok_iff.mp h
        exact ih hrest

theorem mem_referencedNames_of_endMark {records : List Record} {t : Text} {line addr : Nat}
    (h : .endMark (some t) line addr ∈ records) : t ∈ referencedNames records := by
  induction records with
  | nil => cases h
  | cons r rest ih =>
    rcases List.mem_cons.mp h with rfl | hrest
    · exact List.mem_cons_self
    cases r with
    | word kind arg l a =>
      rw [referencedNames_word]
      exact List.mem_append_right _ (ih hrest)
    | endMark name l a =>
      cases name with
      | none => exact ih hrest
      | some n => exact List.mem_cons_of_mem n (ih hrest)

/-! ### The image (R113 to R116) -/

theorem bytesOfWords_length (ws : List Word) : (bytesOfWords ws).length = 2 * ws.length := by
  induction ws with
  | nil => rfl
  | cons w ws ih => simp only [bytesOfWords, List.length_cons, ih]; omega

/-- R110, R115, R116: the body ends at or below address 4095, has the bytes its header counts, and the
checksum is the header's. -/
theorem pass2_image {sh : Shorthand} {p : Pass1} {img : Image} (hp : p.Wf sh) (h : pass2 p = .ok img) :
    img.origin.toNat + 2 * img.length.toNat ≤ 4095 ∧ img.body.length = 2 * img.length.toNat ∧
      img.checksum = headerChecksum img.origin img.length := by
  obtain ⟨words, hwords, h⟩ := except_bind_eq_ok_iff.mp h
  split at h
  · cases h
  · next hsize =>
    cases h
    have hfits := hp.fits
    have hlength := hp.length
    unfold Config.maxImageWords at hsize
    have horigin : (BitVec.ofNat 16 p.origin).toNat = p.origin := by
      rw [BitVec.toNat_ofNat, Nat.mod_eq_of_lt (by omega)]
    have hcount : (BitVec.ofNat 8 (p.length / 2)).toNat = wordCount p.records := by
      rw [BitVec.toNat_ofNat, Nat.mod_eq_of_lt (by omega)]
      omega
    refine ⟨?_, ?_, rfl⟩
    · rw [horigin, hcount]
      omega
    · rw [bytesOfWords_length, resolveRecords_length hwords, hcount]

theorem assemble_image {sh : Shorthand} {source : Text} {img : Image} (h : assemble sh source = .ok img) :
    img.origin.toNat + 2 * img.length.toNat ≤ 4095 ∧ img.body.length = 2 * img.length.toNat ∧
      img.checksum = headerChecksum img.origin img.length := by
  obtain ⟨p, hpass1, hpass2⟩ := except_bind_eq_ok_iff.mp h
  exact pass2_image (wf_of_pass1 hpass1) hpass2

/-- Reading back the byte string of an image whose body fits its header gives the image (R116). -/
theorem ofBytes_toBytes {img : Image} (h : img.bodyFits = true) : Image.ofBytes img.toBytes = some img := by
  simp only [Image.toBytes, Image.ofBytes, wordOfBytes_split]
  exact if_pos h

theorem secondByte_eq_ofNat_mod (w : Word) : w.secondByte = BitVec.ofNat 8 (w.toNat % 256) :=
  BitVec.eq_of_toNat_eq (by rw [Word.secondByte_toNat, BitVec.toNat_ofNat]; omega)

/-! ### Undeclared names end the assembly (R112) -/

theorem assemble_of_undeclared {sh : Shorthand} {source : Text} {p : Pass1} {t : Text}
    (hpass1 : pass1 sh source = .ok p) (href : t ∈ referencedNames p.records)
    (hundeclared : t ∉ p.symtab.map Prod.fst) :
    ∃ i name, assemble sh source = .error (.undeclaredSymbol i name) ∧
      name ∈ referencedNames p.records ∧ name ∉ p.symtab.map Prod.fst := by
  cases hresolve : resolveRecords p.symtab p.records with
  | ok words =>
    obtain ⟨a, ha⟩ := resolveRecords_ok_iff.mp ⟨words, hresolve⟩ t href
    rw [(SymTab.find_eq_none_iff _ _).mpr hundeclared] at ha
    cases ha
  | error e =>
    obtain ⟨i, name, rfl, hmem, hfind⟩ := resolveRecords_error hresolve
    refine ⟨i, name, ?_, hmem, (SymTab.find_eq_none_iff _ _).mp hfind⟩
    exact except_bind_eq_error_iff.mpr (.inr ⟨p, hpass1, except_bind_eq_error_iff.mpr (.inl hresolve)⟩)

theorem scanLine_endMark (sh : Shorthand) (line : Nat) (t : Text) (p : Pass1) :
    scanLine sh line [['#'], t] p =
      if isReserved sh t then .error (.parseFault line t)
      else .ok (.ended { p with
        records := p.records ++ [.endMark (some t) line (p.origin + p.length)] }) := by
  have hline : scanLine sh line [['#'], t] p = endName sh line (some t) >>= fun n =>
      .ok (.ended { p with records := p.records ++ [.endMark n line (p.origin + p.length)] }) := rfl
  rw [hline, endName]
  split <;> rfl

/-! ### Mnemonics (R64, R101, R102) -/

theorem isUpper_iff (d : Char) : d.isUpper = true ↔ 65 ≤ d.toNat ∧ d.toNat ≤ 90 := by
  simp only [Char.isUpper, Char.toNat, decide_eq_true_eq, ge_iff_le, UInt32.le_iff_toNat_le]
  rfl

theorem toNat_ofNat_of_lt {n : Nat} (h : n < 128) : (Char.ofNat n).toNat = n := by
  rw [Char.toNat_ofNat, if_pos (.inl (by omega))]

/-- A character is an upper-case letter in either case exactly when its upper case is that letter. -/
theorem upper_eq_iff {c d : Char} (hd : d.isUpper = true) : upper c = d ↔ c = d ∨ c = d.toLower := by
  have hrange := (isUpper_iff d).mp hd
  have hlower : d.toLower.toNat = d.toNat + 32 := by
    rw [Char.toLower_eq_of_isUpper hd, toNat_ofNat_of_lt (by omega)]
  unfold upper
  rw [← Char.toNat_inj, ← Char.toNat_inj, ← Char.toNat_inj, hlower]
  split
  · rw [toNat_ofNat_of_lt (by omega)]
    omega
  · omega

theorem spells_iff {t name : Text} (h : ∀ d ∈ name, d.isUpper = true) : Spells t name ↔ t.map upper = name := by
  unfold Spells
  induction t generalizing name with
  | nil => simp [eq_comm]
  | cons c t ih =>
    cases name with
    | nil => simp
    | cons d name =>
      rw [List.forall_mem_cons] at h
      obtain ⟨hd, hname⟩ := h
      rw [List.forall₂_cons, List.map_cons, List.cons.injEq, ih hname, upper_eq_iff hd]

theorem mnemonicRows_eq : mnemonicRows = mnemonicTable := rfl

theorem mnemonicTable_isUpper : ∀ row ∈ mnemonicTable, ∀ d ∈ row.1, d.isUpper = true := by
  have hall : mnemonicTable.all (fun row => row.1.all Char.isUpper) = true := rfl
  exact fun row hrow => List.all_eq_true.mp (List.all_eq_true.mp hall row hrow)

/-- No name stands twice in the table, so each row's name finds that row. -/
theorem lookup_mnemonicTable : ∀ row ∈ mnemonicTable, mnemonicTable.lookup row.1 = some row.2 :=
  List.map_inj_left.mp rfl

theorem mnemonicOpcode_of_lookup {t : Text} {op : Opcode} (h : mnemonicTable.lookup (t.map upper) = some op)
    (sh : Shorthand) : mnemonicOpcode sh t = some op := by
  simp only [mnemonicOpcode, h]

/-- With no SHORTHAND the mnemonics are those of the table. -/
theorem mnemonicOpcode_nil (t : Text) : mnemonicOpcode [] t = mnemonicTable.lookup (t.map upper) := by
  cases hlookup : mnemonicTable.lookup (t.map upper) with
  | some op => exact mnemonicOpcode_of_lookup hlookup []
  | none =>
    simp only [mnemonicOpcode, hlookup]
    split <;> rfl

theorem isName_of_mnemonicOpcode {sh : Shorthand} {t : Text} {op : Opcode}
    (h : mnemonicOpcode sh t = some op) : isName sh t = false := by
  rw [isName, isReserved, h, Option.isSome_some, Bool.true_or, Bool.not_true, Bool.and_false]

theorem decodeWord_wordOfRecord (i : Instr) :
    decodeWord (wordOfRecord (.instr i.opcode) i.operand.toNat) = i := by
  rw [wordOfRecord, BitVec.ofNat_toNat, BitVec.setWidth_eq]
  exact decodeWord_encode i

end Sys2Proof.Machine

namespace Sys2Proof.Proofs

open Sys2Proof.Machine Sys2Proof.Claims

/-- Settles O54: the invariant of pass 1 at its end. -/
theorem symbolsAreDistinct : Obligations.SymbolsAreDistinct := by
  intro sh source p h
  have hp := wf_of_pass1 h
  exact ⟨hp.nodup, hp.fits, by rw [hp.length, Nat.mul_mod_right], hp.addrs⟩

/-- Settles O55, both halves by induction on the records. -/
theorem resolutionNeedsDeclarations : Obligations.ResolutionNeedsDeclarations :=
  fun _ _ => ⟨resolveRecords_ok_iff, fun _ => resolveRecords_error⟩

/-- Settles O57: what is no name is in no symbol table, which holds names only. -/
theorem endOperandMustResolve : Obligations.EndOperandMustResolve := by
  refine ⟨scanLine_endMark, fun sh source p t line addr hpass1 hrecord ht => ?_⟩
  have hundeclared : t ∉ p.symtab.map Prod.fst := by
    rcases ht with hnoname | hlacks
    · intro hmem
      rw [(wf_of_pass1 hpass1).names t hmem] at hnoname
      cases hnoname
    · exact hlacks
  exact assemble_of_undeclared hpass1 (mem_referencedNames_of_endMark hrecord) hundeclared

/-- Settles O50. -/
theorem assembledImageForm : Obligations.AssembledImageForm := by
  intro sh source img h
  obtain ⟨hend, hlength, hchecksum⟩ := assemble_image h
  refine ⟨by omega, hend, hlength, ?_, ?_, ofBytes_toBytes ((bodyFits_iff img).mpr hlength)⟩
  · rw [hchecksum, headerChecksum, BitVec.toNat_ofNat]
  · rw [Image.toBytes, secondByte_eq_ofNat_mod]
    rfl

/-- Settles O51: the load's one check, and the bound that every assembled image meets. -/
theorem assembledImagesLoad : Obligations.AssembledImagesLoad := by
  refine ⟨fun img m hfits => ?check, fun img p e => launch_of_load_error, fun sh source img m h => ?assembled⟩
  case check =>
    rw [load_of_bodyFits hfits]
    split
    · next hfar => simp [hfar]
    · next hnear => simp [hnear, Nat.not_le.mp hnear]
  case assembled =>
    obtain ⟨hend, hlength, _⟩ := assemble_image h
    exact ⟨_, load_eq_ok_iff.mpr ⟨hlength, by omega, rfl⟩⟩

/-- Settles O52, by evaluation of the assembler on the three lines. -/
theorem assemblerExample : Obligations.AssemblerExample := rfl

/-- Settles O53: a text spells a name exactly when its upper case is the name, which is what the table is
looked up by. -/
theorem assemblerAndDecoderAgree : Obligations.AssemblerAndDecoderAgree := by
  rw [Obligations.AssemblerAndDecoderAgree, mnemonicRows_eq]
  refine ⟨decodeWord_wordOfRecord, fun row hrow sh t hspells => ?_, fun t op hop => ?_⟩
  · have hupper := (spells_iff (mnemonicTable_isUpper row hrow)).mp hspells
    have hop : mnemonicOpcode sh t = some row.2 :=
      mnemonicOpcode_of_lookup (hupper ▸ lookup_mnemonicTable row hrow) sh
    exact ⟨hop, isName_of_mnemonicOpcode hop⟩
  · rw [mnemonicOpcode_nil] at hop
    obtain ⟨before, after, htable, _⟩ := List.lookup_eq_some_iff.mp hop
    have hrow : (t.map upper, op) ∈ mnemonicTable := by rw [htable]; simp
    exact ⟨_, hrow, (spells_iff (mnemonicTable_isUpper _ hrow)).mpr rfl, rfl⟩

end Sys2Proof.Proofs
end
